-- ==== Sys2Proof/Word.lean ====
section
/-! DEFINITION. The value types of the predictor: a Bit (rule R50), a BitVector (rules R7 and R71) and the
all-zero vector. A BitVector of the spec is a sequence whose length is a property of the value, and a wrong
length is an event of the machine (a violation), so it is a list of bits and not a fixed-width word. -/

namespace Sys2Proof

/-- R50: a Bit is `ZERO` (`false`) or `ONE` (`true`). -/
abbrev Bit := Bool

/-- R7, R71: a BitVector is a sequence of bits, sequence index 0 first and most significant (decision D1).
Equality is structural: two vectors are equal when they have the same length and the same bits. -/
abbrev Bits := List Bit

/-- R7: `zeros(n)`, the vector of `n` zero bits. -/
def zeros (n : Nat) : Bits := List.replicate n false

end Sys2Proof
end

