-- ==== Sys2Proof/Config.lean ====
section
/-! DEFINITION. The construction parameters (rules R5, R57, R58): what a builder asks for (`Params`) and what an
admitted instance is fixed by (`Config`). Which requests are admitted is `Sys2Proof.Machine.admittedConfig`. -/

namespace Sys2Proof

/-- R1, R57: the five variants, in the order of their codes 0 to 4. -/
inductive Variant where
  /-- global history, table keyed by the history alone -/
  | GAg
  /-- history per address, table keyed by address and history -/
  | PAp
  /-- history per address, table keyed by hashed address and history -/
  | PAs
  /-- history per set, table keyed by address and history -/
  | SAp
  /-- history per set, table keyed by hashed address and history -/
  | SAs
deriving DecidableEq, Repr

/-- R58, R108: XOR is the one hash mode the block has; the others are declared by the source, unnamed and
undefined. -/
inductive HashMode where
  | xor
  | other
deriving DecidableEq, Repr

/-- R58, R100: SATURATING is the one count mode the block has; any other is unnamed and undefined. -/
inductive CountMode where
  | saturating
  | other
deriving DecidableEq, Repr

/-- R5: the parameters as a builder presents them, not checked yet. `K` and `hashMode` are given where they
apply (PAs, SAp, SAs). -/
structure Params where
  /-- the 3-bit variant code of rule R57 -/
  variantCode : BitVec 3
  /-- bits of history kept per register -/
  H : Nat
  /-- bits of the saturating counter -/
  S : Nat
  /-- bits of a branch address -/
  A : Nat
  /-- width of the set selector -/
  K : Option Nat
  hashMode : Option HashMode
  countMode : CountMode
deriving DecidableEq, Repr

/-- R5: the parameters of an instance, fixed for its lifetime. `HASHMODE` and the count mode have one admitted
value each and occupy no bits (rule R58), so they are not held here. `K` is 0 in GAg and PAp, which take no `K`
(notes/assumptions/8.md). -/
structure Config where
  variant : Variant
  H : Nat
  S : Nat
  A : Nat
  K : Nat
deriving DecidableEq, Repr

/-- DESIGN CHOICE (notes/assumptions/1.md): the parameters of the instance that `State.reset` stands for. The
spec fixes none ("none has a fixed value for this hardware", R5); every statement ranges over all of them. -/
def Config.standard : Config := { variant := .GAg, H := 2, S := 2, A := 5, K := 0 }

end Sys2Proof
end

