-- ==== Sys2Proof/Syntax.lean ====
section
/-! DEFINITION. The operations of the block, one constructor per row of the operation table (rule R64), the branch
outcome they carry (rule R51), and the trace notation of rules R62 and R63. -/

namespace Sys2Proof

/-- R51: the outcome of a branch. -/
inductive BranchResult where
  | taken
  | notTaken
deriving DecidableEq, Repr

/-- R64: the 16 operations. An address operand is a BitVector whose length is checked when the operation runs
(rule R123); fields an operation ignores (rule R56) are not part of it. -/
inductive Instr where
  | nop
  | predictGAg (addr : Bits)
  | updateGAg (addr : Bits) (actual : BranchResult)
  | monitorGAg
  | predictPAp (addr : Bits)
  | updatePAp (addr : Bits) (actual : BranchResult)
  | monitorPAp
  | predictPAs (addr : Bits)
  | updatePAs (addr : Bits) (actual : BranchResult)
  | monitorPAs
  | predictSAp (addr : Bits)
  | updateSAp (addr : Bits) (actual : BranchResult)
  | monitorSAp
  | predictSAs (addr : Bits)
  | updateSAs (addr : Bits) (actual : BranchResult)
  | monitorSAs
deriving DecidableEq, Repr

/-- R62, R63: one line of a trace. `branch` is the pseudo-operation `B`, which stands for two operations. -/
inductive TraceOp where
  | predict (addr : Bits)
  | update (addr : Bits) (actual : BranchResult)
  | monitor
  | nop
  | branch (addr : Bits) (actual : BranchResult)
deriving DecidableEq, Repr

end Sys2Proof
end

