-- ==== Sys2Proof/Machine/Vectors.lean ====
section
/-! DEFINITION. Vector functions: the unsigned value of a vector and its inverse (rule R7), the Bit operation
(rule R70), the BranchResult encoding (rule R51) and the shift-register functions that raise nothing
(rules R73, R74, R76). -/

namespace Sys2Proof.Machine

/-- R7: `val(v)`, the unsigned value, sequence index 0 most significant. -/
def val : Bits → Nat
  | [] => 0
  | b :: rest => b.toNat * 2 ^ rest.length + val rest

/-- R7: `vec_n(m)`, the length-`n` vector of value `m`. For `m ≥ 2^n`, where R7 defines nothing, it holds the
low `n` bits of `m`; only the host's `withFetchWord` and `decodeTableWord` present such an `m`. -/
def vec : Nat → Nat → Bits
  | 0, _ => []
  | n + 1, m => decide (m / 2 ^ n % 2 = 1) :: vec n m

/-- R70: exclusive or of two bits, `ONE` iff exactly one is `ONE`. -/
def xorBit (a b : Bit) : Bit := a != b

/-- R51: `bit(r)`, TAKEN is 1. -/
def bitOf : BranchResult → Bit
  | .taken => true
  | .notTaken => false

/-- R51: `result(b)`, 1 is TAKEN. -/
def resultOf : Bit → BranchResult
  | true => .taken
  | false => .notTaken

/-- R73: `read(r)`, the contents of a shift register. -/
def readReg (r : Bits) : Bits := r

/-- R74: `clear(r)`, reset to default; the length stays. -/
def clearReg (r : Bits) : Bits := zeros r.length

/-- R75, R76: `insert(r, b)`. `b` enters at the last index, every bit moves one index toward 0 and the bit at
index 0 is dropped. The length never changes. -/
def shiftInsert : Bits → Bit → Bits
  | [], _ => []
  | _ :: rest, b => rest ++ [b]

end Sys2Proof.Machine
end

