-- ==== Sys2Proof/WellFormed.lean ====
section
/-! DEFINITION. When an operation is one of a given instance: its address has the instance's width and it belongs to
the instance's variant (rules R53, R64, R123). -/

namespace Sys2Proof

/-- R123: an address operand has exactly `A` bits. -/
def addrFits (cfg : Config) (addr : Bits) : Bool := decide (addr.length = cfg.A)

/-- R64: an operation's row belongs to one variant. -/
def ofVariant (cfg : Config) (v : Variant) : Bool := decide (cfg.variant = v)

/-- An operation that a command word of the instance `cfg` can carry. NOP belongs to every variant. -/
def Instr.wf (cfg : Config) : Instr → Bool
  | .nop => true
  | .predictGAg addr => ofVariant cfg .GAg && addrFits cfg addr
  | .updateGAg addr _ => ofVariant cfg .GAg && addrFits cfg addr
  | .monitorGAg => ofVariant cfg .GAg
  | .predictPAp addr => ofVariant cfg .PAp && addrFits cfg addr
  | .updatePAp addr _ => ofVariant cfg .PAp && addrFits cfg addr
  | .monitorPAp => ofVariant cfg .PAp
  | .predictPAs addr => ofVariant cfg .PAs && addrFits cfg addr
  | .updatePAs addr _ => ofVariant cfg .PAs && addrFits cfg addr
  | .monitorPAs => ofVariant cfg .PAs
  | .predictSAp addr => ofVariant cfg .SAp && addrFits cfg addr
  | .updateSAp addr _ => ofVariant cfg .SAp && addrFits cfg addr
  | .monitorSAp => ofVariant cfg .SAp
  | .predictSAs addr => ofVariant cfg .SAs && addrFits cfg addr
  | .updateSAs addr _ => ofVariant cfg .SAs && addrFits cfg addr
  | .monitorSAs => ofVariant cfg .SAs

end Sys2Proof
end

