-- ==== Sys2Proof/Decode.lean ====
section
/-! DEFINITION. The command word (rules R53, R54, R56, R61, R64): the decoder, the encoder, the operation of a
variant, and the expansion of the trace notation (rules R62, R63).

A command word is a BitVector, most significant bit first: `addr ‖ actual ‖ op`, with `op` in its last two bits.
The decoder reads the fields from the low end, so the address takes whatever bits stand above `actual`: a word
of `A + 3` bits gives an address of `A` bits, and a word of another length gives an address whose length the
operation itself finds wrong (notes/assumptions/5.md). -/

namespace Sys2Proof

/-- Why the decoder gives no operation. -/
inductive DecodeError where
  /-- fewer than three bits: the word has no `actual` or `op` field (notes/assumptions/5.md). Safe. -/
  | shortCommand
deriving DecidableEq, Repr

/-- R64: PREDICT of a variant. -/
def predictInstr (v : Variant) (addr : Bits) : Instr :=
  match v with
  | .GAg => .predictGAg addr
  | .PAp => .predictPAp addr
  | .PAs => .predictPAs addr
  | .SAp => .predictSAp addr
  | .SAs => .predictSAs addr

/-- R64: UPDATE of a variant. -/
def updateInstr (v : Variant) (addr : Bits) (actual : BranchResult) : Instr :=
  match v with
  | .GAg => .updateGAg addr actual
  | .PAp => .updatePAp addr actual
  | .PAs => .updatePAs addr actual
  | .SAp => .updateSAp addr actual
  | .SAs => .updateSAs addr actual

/-- R64: MONITOR of a variant. -/
def monitorInstr (v : Variant) : Instr :=
  match v with
  | .GAg => .monitorGAg
  | .PAp => .monitorPAp
  | .PAs => .monitorPAs
  | .SAp => .monitorSAp
  | .SAs => .monitorSAs

/-- R54, R64: the row selected by the instance's variant and the `op` field `cmd[1] cmd[0]`. -/
def selectRow (v : Variant) (addr : Bits) (actual op1 op0 : Bit) : Instr :=
  match op1, op0 with
  | false, false => .nop
  | false, true => predictInstr v addr
  | true, false => updateInstr v addr (Machine.resultOf actual)
  | true, true => monitorInstr v

/-- R53, R54, R56: the operation a command word carries in the instance `cfg`. -/
def decode (cfg : Config) (cmd : Bits) : Except DecodeError Instr :=
  match cmd.reverse with
  | op0 :: op1 :: actual :: addrRev => .ok (selectRow cfg.variant addrRev.reverse actual op1 op0)
  | _ => .error .shortCommand

/-- R53: a command word from its fields. -/
def cmdWord (addr : Bits) (actual op1 op0 : Bit) : Bits := addr ++ [actual, op1, op0]

/-- R54, R56: the canonical command word of PREDICT, which drives `actual` to 0. -/
def encodePredict (addr : Bits) : Bits := cmdWord addr false false true

/-- R54: the command word of UPDATE. -/
def encodeUpdate (addr : Bits) (actual : BranchResult) : Bits :=
  cmdWord addr (Machine.bitOf actual) true false

/-- R54, R56: the canonical command word of MONITOR, which drives `addr` and `actual` to 0. -/
def encodeMonitor (cfg : Config) : Bits := cmdWord (zeros cfg.A) false true true

/-- R53, R54, R56: the canonical command word of an operation; fields it ignores are 0. -/
def encode (cfg : Config) : Instr → Bits
  | .nop => cmdWord (zeros cfg.A) false false false
  | .predictGAg addr => encodePredict addr
  | .updateGAg addr actual => encodeUpdate addr actual
  | .monitorGAg => encodeMonitor cfg
  | .predictPAp addr => encodePredict addr
  | .updatePAp addr actual => encodeUpdate addr actual
  | .monitorPAp => encodeMonitor cfg
  | .predictPAs addr => encodePredict addr
  | .updatePAs addr actual => encodeUpdate addr actual
  | .monitorPAs => encodeMonitor cfg
  | .predictSAp addr => encodePredict addr
  | .updateSAp addr actual => encodeUpdate addr actual
  | .monitorSAp => encodeMonitor cfg
  | .predictSAs addr => encodePredict addr
  | .updateSAs addr actual => encodeUpdate addr actual
  | .monitorSAs => encodeMonitor cfg

/-- R53: the command word whose integer value has the low `nbits` bits of `w`, on an instance of address
width `A`. Bit `j` of the integer is `cmd[j]`. -/
def wordOfTable (cfg : Config) (nbits w : Nat) : Bits := Machine.vec (cfg.A + 3) (w % 2 ^ nbits)

/-- The host's question: the operation the decoder reads from a table word. The variant is no field of the word
(R57, R64), so it is that of the instance `State.reset` stands for (notes/assumptions/2.md). -/
def decodeTableWord (nbits w : Nat) : Option Instr :=
  (decode Config.standard (wordOfTable Config.standard nbits w)).toOption

/-- R62, R63: the operations a trace line stands for; `B` is PREDICT and then UPDATE of the same address. -/
def expandTrace (v : Variant) : TraceOp → List Instr
  | .predict addr => [predictInstr v addr]
  | .update addr actual => [updateInstr v addr actual]
  | .monitor => [monitorInstr v]
  | .nop => [.nop]
  | .branch addr actual => [predictInstr v addr, updateInstr v addr actual]

end Sys2Proof
end

