-- ==== Sys2Proof/Machine/Flags.lean ====
section
/-! DEFINITION. The combinational logic (rules R100 to R109): the saturating counter step, the prediction bit and the
XOR fold of an address. The block has no flags or condition codes (rule R12); the prediction bit is the one
condition an operation computes. -/

namespace Sys2Proof.Machine

/-- R100: `count(c, inc)`, exact arithmetic clamped to `[0, 2^S - 1]`, with `S` the length of `c`. -/
def count (c : Bits) (inc : Bool) : Bits :=
  vec c.length (if inc then min (val c + 1) (2 ^ c.length - 1) else val c - 1)

/-- R103: the prediction bit of a counter block, its bit at index 0. A block has `S ≥ 1` bits (R6). -/
def topBit : Bits → Bit
  | [] => false
  | b :: _ => b

/-- R103, R124: the prediction read from a counter block. -/
def predictionOf (c : Bits) : BranchResult := resultOf (topBit c)

/-- R105: bucket `j` of the `K`-bucket fold, accumulated over the bits of `x`, the first of which is at position
`pos`. A bucket starts at 0, which gives the same as a plain copy of its first bit (R105). -/
def bucket (K j : Nat) : Nat → Bits → Bit
  | _, [] => false
  | pos, b :: rest =>
    if pos % K = j then xorBit b (bucket K j (pos + 1) rest) else bucket K j (pos + 1) rest

/-- R105, R107: `hash(x, K)` in XOR mode, the `K`-bit fold of `x`. Outside `1 ≤ K ≤ len(x)` some bucket is
undefined and there is no result. -/
def hashFold (x : Bits) (K : Nat) : Option Bits :=
  if 1 ≤ K ∧ K ≤ x.length then some ((List.range K).map fun j => bucket K j 0 x) else none

end Sys2Proof.Machine
end

