-- ==== Sys2Proof/Machine/State.lean ====
section
/-! DEFINITION. The state of one instance (rules R10 to R19), the interface it is seen through (rules R52, R65, R120),
the reasons a step can stop, and the state after construction and reset (rules R19, R180). -/

namespace Sys2Proof.Machine

/-- R10, R14, R15, R30: a table of the block, a partial map from BitVectors to BitVectors. It lists the present
entries only, in rising order of the key (`Memory.wf`), so that equal maps are equal data. A key that is not
listed is `ABSENT`. -/
abbrev Table := List (Bits × Bits)

/-- R161, R163, R165: the violation codes. -/
inductive ViolationCode where
  /-- V0 `FAILED_EARLIER`: PREDICT or UPDATE presented while `FAILED = 1` -/
  | failedEarlier
  /-- V1 `ADDR_WIDTH`: an address whose length is not `A` -/
  | addrWidth
  /-- V2 `VALUE_WIDTH`: a value, index or key whose length is not that of its place -/
  | valueWidth
  /-- V3 `CONFIG_INVALID`: construction with parameters that are not admitted -/
  | configInvalid
deriving DecidableEq, Repr

/-- R65: the MONITOR response. `K` is given for PAs, SAp and SAs, `bhr` for GAg, `bank` for the other four.
The lists hold the present entries, each once, in the order of the tables (R65 leaves the order open:
notes/assumptions/9.md). -/
structure Snapshot where
  variant : Variant
  H : Nat
  S : Nat
  A : Nat
  K : Option Nat
  bhr : Option Bits
  bank : Option (List (Bits × Bits))
  pht : List (Bits × Bits)
  sc : Bits
  failed : Bit
deriving DecidableEq, Repr

/-- R120: the response to a command. -/
inductive Response where
  | none
  | prediction (result : BranchResult)
  | snapshot (view : Snapshot)
  | violation (code : ViolationCode)
deriving DecidableEq, Repr

/-- R52: what the caller drives at one rising clock edge. -/
structure ClockEdge where
  /-- synchronous reset, active high -/
  rst : Bit
  /-- a command is presented -/
  cmdValid : Bit
  /-- the command word, most significant bit first (R53) -/
  cmd : Bits
deriving DecidableEq, Repr

/-- R10: the state of one instance, with its construction parameters (R5) and the model's two ports to the caller.

`cfg`, `bhr`, `bank`, `pht`, `sc` and `failed` are the spec's. `bhr` exists in GAg only and `bank` in the other four
variants only; where an element does not exist the field is empty (notes/assumptions/8.md). `input` and `resp` are
the model's own: what the caller will present at the coming clock edges, and the response to the last one
(notes/assumptions/2.md, notes/assumptions/3.md). -/
structure State where
  /-- R5: the parameters, which no operation changes -/
  cfg : Config
  /-- R13: the global history register, `H` bits, most recent outcome last -/
  bhr : Bits
  /-- R14: the bank of history registers -/
  bank : Table
  /-- R15: the pattern history table -/
  pht : Table
  /-- R16: the working counter register, `S` bits -/
  sc : Bits
  /-- R17: the sticky failure flag -/
  failed : Bit
  /-- the clock edges the caller has still to drive, first one next -/
  input : List ClockEdge
  /-- the response of the last transition -/
  resp : Response
deriving DecidableEq, Repr

/-- No step of this machine faults: its one exceptional event, a violation, is a next state with `FAILED` set
(R164, notes/assumptions/6.md), so there is no reason to list. -/
inductive Fault where
deriving DecidableEq, Repr

/-- Why a step gives no meaning. Every one is safe: the model stops where the spec gives no behaviour. -/
inductive Refusal where
  /-- an arm of `exec` whose instruction has no meaning yet; no arm raises it. Safe. -/
  | notModelled (mnemonic : String)
  /-- raised by PREDICT, UPDATE and MONITOR when the parameters in the state are not admitted ones: no such
  instance exists (R6, R163), so no reachable state raises it. Safe. -/
  | noInstance
  /-- raised by PREDICT, UPDATE and MONITOR of one variant on an instance of another, which has no such operation
  (R64); the decoder never produces one. Safe. -/
  | otherVariant
  /-- raised by `step` on a command word of fewer than three bits, which has no `op` and `actual` fields and cannot
  stand on the port of R53. Safe. -/
  | shortCommand
  /-- raised by the address hash outside `1 ≤ K ≤ N`, where R107 gives the result no value; an admitted instance
  never calls it there. Safe. -/
  | hashDomain
deriving DecidableEq, Repr

/-- R13, R18: the width of the global history register, `H` in GAg; the register does not exist elsewhere. -/
def bhrWidth (cfg : Config) : Nat :=
  match cfg.variant with
  | .GAg => cfg.H
  | _ => 0

/-- R19, R180: the state of a freshly constructed instance, and of one after reset. -/
def State.fresh (cfg : Config) : State :=
  { cfg := cfg
    bhr := zeros (bhrWidth cfg)
    bank := []
    pht := []
    sc := zeros cfg.S
    failed := false
    input := []
    resp := .none }

/-- R180: the machine right after reset, for the instance `Config.standard` (notes/assumptions/1.md), with nothing
presented by the caller yet. -/
def State.reset : State := State.fresh Config.standard

/-- Replace the global history register. -/
def State.setBhr (s : State) (v : Bits) : State := { s with bhr := v }
/-- Replace the bank. -/
def State.setBank (s : State) (t : Table) : State := { s with bank := t }
/-- Replace the pattern history table. -/
def State.setPht (s : State) (t : Table) : State := { s with pht := t }
/-- Replace the working counter register. -/
def State.setSc (s : State) (v : Bits) : State := { s with sc := v }
/-- Replace the failure flag. -/
def State.setFailed (s : State) (b : Bit) : State := { s with failed := b }
/-- Replace what the caller will present. -/
def State.setInput (s : State) (l : List ClockEdge) : State := { s with input := l }
/-- Replace the response. -/
def State.setResp (s : State) (r : Response) : State := { s with resp := r }

end Sys2Proof.Machine
end

