-- ==== Sys2Proof/Machine/Operands.lean ====
section
/-! DEFINITION. Parameters and operand assembly: the admitted parameters (rules R6, R57, R163), the derived widths
(rule R11) and the two addressing policies (rules R59, R121, R122). -/

namespace Sys2Proof.Machine

/-- R57: the variant of a code; 5, 6 and 7 are reserved. -/
def variantOfCode (code : BitVec 3) : Option Variant :=
  match code.toNat with
  | 0 => some .GAg
  | 1 => some .PAp
  | 2 => some .PAs
  | 3 => some .SAp
  | 4 => some .SAs
  | _ => none

/-- R57: the code of a variant. -/
def codeOfVariant : Variant → BitVec 3
  | .GAg => 0
  | .PAp => 1
  | .PAs => 2
  | .SAp => 3
  | .SAs => 4

/-- R5: the variants that hash the address, which are those that take `K` and `HASHMODE`. -/
def hashes : Variant → Bool
  | .GAg => false
  | .PAp => false
  | .PAs => true
  | .SAp => true
  | .SAs => true

/-- R5, R20, R58: the `HASHMODE` of an admitted instance, a constant: XOR where the address is hashed, none
elsewhere. -/
def hashModeOf (cfg : Config) : Option HashMode := if hashes cfg.variant then some .xor else none

/-- R6: the legal ranges. A variant that takes no `K` holds 0 there. -/
def legal (cfg : Config) : Bool :=
  decide (1 ≤ cfg.H) && decide (1 ≤ cfg.S) && decide (1 ≤ cfg.A) &&
    (if hashes cfg.variant then decide (1 ≤ cfg.K) && decide (cfg.K ≤ cfg.A) else decide (cfg.K = 0))

/-- R57, R58: the mode parameters of a request are the block's own. A hash mode other than XOR is refused whatever
the variant, and a variant that hashes needs XOR (R6). -/
def modesAdmitted (v : Variant) (p : Params) : Bool :=
  decide (p.countMode = .saturating) &&
    (if hashes v then decide (p.hashMode = some .xor) else decide (p.hashMode ≠ some .other))

/-- R6, R57, R58, R163: the parameters of the instance a request asks for, if the request is admitted. A `K` given
to a variant that takes none is not used (notes/assumptions/8.md). -/
def admittedConfig (p : Params) : Option Config :=
  match variantOfCode p.variantCode with
  | none => none
  | some v =>
    let cfg : Config :=
      { variant := v, H := p.H, S := p.S, A := p.A, K := if hashes v then p.K.getD 0 else 0 }
    if legal cfg && modesAdmitted v p then some cfg else none

/-- R11: `IW`, the width of a bank index. GAg has no bank. -/
def indexWidth (cfg : Config) : Option Nat :=
  match cfg.variant with
  | .GAg => none
  | .PAp => some cfg.A
  | .PAs => some cfg.A
  | .SAp => some cfg.K
  | .SAs => some cfg.K

/-- R11: `KW`, the width of a table key. -/
def keyWidth (cfg : Config) : Nat :=
  match cfg.variant with
  | .GAg => cfg.H
  | .PAp => cfg.A + cfg.H
  | .PAs => cfg.K + cfg.H
  | .SAp => cfg.A + cfg.H
  | .SAs => cfg.K + cfg.H

/-- R121: what selects a history register. -/
inductive HistIndex where
  /-- `GLOBAL`: the one register `BHR` -/
  | global
  /-- the register of the bank at this index -/
  | entry (index : Bits)
deriving DecidableEq, Repr

/-- R121: `hidx(addr)`. There is none where the hash has no value (R107). -/
def hidx (cfg : Config) (addr : Bits) : Option HistIndex :=
  match cfg.variant with
  | .GAg => some .global
  | .PAp => some (.entry addr)
  | .PAs => some (.entry addr)
  | .SAp => (hashFold addr cfg.K).map .entry
  | .SAs => (hashFold addr cfg.K).map .entry

/-- R122: `tkey(addr, h)`, the address or hash component first and the history last. There is none where the hash
has no value (R107). -/
def tkey (cfg : Config) (addr h : Bits) : Option Bits :=
  match cfg.variant with
  | .GAg => some h
  | .PAp => some (addr ++ h)
  | .PAs => (hashFold addr cfg.K).map (· ++ h)
  | .SAp => some (addr ++ h)
  | .SAs => (hashFold addr cfg.K).map (· ++ h)

end Sys2Proof.Machine
end

