-- ==== Sys2Proof/Machine/Ops.lean ====
section
/-! DEFINITION. The storage actions on the bank and the table (rules R77, R80 to R89), raising a violation
(rules R164, R165), reset and construction (rules R163, R180), MONITOR's view (rule R65) and the output signals
(rule R52). -/

namespace Sys2Proof.Machine

/-- A total order on keys: at the first index where two keys differ the one with 0 is smaller, and a proper prefix
is smaller. On keys of equal length it is the order of `val`. It only fixes the order in which a table lists its
entries. -/
def keyLt : Bits → Bits → Bool
  | _, [] => false
  | [], _ :: _ => true
  | a :: x, b :: y => if a = b then keyLt x y else b

/-- The canonical form of a table: keys strictly rising, so each key is listed at most once. An absent key is not
listed, so no entry equals what an unlisted key reads as. -/
abbrev Memory.wf (t : Table) : Prop := t.Pairwise fun a b => keyLt a.1 b.1 = true

/-- R86: the value at a key, or `none` for `ABSENT`. -/
def tableGet : Table → Bits → Option Bits
  | [], _ => none
  | (k', v) :: rest, k => if k = k' then some v else tableGet rest k

/-- R87: the table with the value at a key replaced or added, in the canonical order. -/
def tablePut : Table → Bits → Bits → Table
  | [], k, v => [(k, v)]
  | (k', v') :: rest, k, v =>
    if k = k' then (k, v) :: rest
    else if keyLt k k' then (k, v) :: (k', v') :: rest
    else (k', v') :: tablePut rest k v

/-- R88: the table with a value added at a key that is absent; a present entry is left untouched. -/
def tablePutIfAbsent (t : Table) (k d : Bits) : Table :=
  match tableGet t k with
  | none => tablePut t k d
  | some _ => t

/-- R162: the value at a key, or the all-zero default of width `w` where the key is absent. -/
def readOr (w : Nat) (t : Table) (k : Bits) : Bits := (tableGet t k).getD (zeros w)

/-- Why an operation is abandoned: a violation of the spec, or a form the spec gives no behaviour. -/
inductive Stop where
  | violation (code : ViolationCode)
  | refusal (reason : Refusal)
deriving DecidableEq, Repr

/-- R164, R165: raise a violation. The operation is abandoned with no change but `FAILED <- 1`; the response is the
code. With V0 the flag is 1 already. -/
def raise (code : ViolationCode) (s : State) : State := (s.setFailed true).setResp (.violation code)

/-- R38, R164: end an operation that started in `s`. Either its whole effect and its response stand, or it was
abandoned and nothing of it stands. -/
def finish (s : State) : Except Stop (State × Response) → Host.Outcome State Fault Refusal
  | .ok (s', r) => .next (s'.setResp r)
  | .error (.violation code) => .next (raise code s)
  | .error (.refusal reason) => .refused reason

/-- R64, R163: run an operation of the variant `v`. It exists only on an instance of that variant. -/
def onVariant (v : Variant) (s : State) (op : State → Except Stop (State × Response)) :
    Host.Outcome State Fault Refusal :=
  if legal s.cfg = false then .refused .noInstance
  else if s.cfg.variant ≠ v then .refused .otherVariant
  else finish s (op s)

/-- R165, R166: the first check of PREDICT and UPDATE. -/
def checkUsable (s : State) : Except Stop Unit :=
  if s.failed then .error (.violation .failedEarlier) else .ok ()

/-- R123, R161: the second check of PREDICT and UPDATE. -/
def checkAddr (addr : Bits) (s : State) : Except Stop Unit :=
  if addr.length = s.cfg.A then .ok () else .error (.violation .addrWidth)

/-- R107: a function called outside its domain is refused. -/
def demand {α : Type} : Option α → Except Stop α
  | some a => .ok a
  | none => .error (.refusal .hashDomain)

/-- R77: `load(r, v)` on a shift register of length `len`; the result is the new contents. -/
def loadReg (len : Nat) (v : Bits) : Except Stop Bits :=
  if v.length = len then .ok v else .error (.violation .valueWidth)

/-- R81, R82: `BankRead(i)`. Reading an absent index creates a cleared register. In GAg, which has no bank and no index
width (R11, R30), it answers V2 for every index: DESIGN CHOICE (notes/assumptions/14.md); no operation calls it there. -/
def bankRead (i : Bits) (s : State) : Except Stop (Bits × State) :=
  if indexWidth s.cfg = some i.length then
    .ok (readOr s.cfg.H s.bank i, s.setBank (tablePutIfAbsent s.bank i (zeros s.cfg.H)))
  else .error (.violation .valueWidth)

/-- R81, R83: `BankWrite(i, v)`. In GAg it answers V2 for every index: DESIGN CHOICE (notes/assumptions/14.md); no
operation calls it there. -/
def bankWrite (i v : Bits) (s : State) : Except Stop State :=
  if indexWidth s.cfg = some i.length ∧ v.length = s.cfg.H then .ok (s.setBank (tablePut s.bank i v))
  else .error (.violation .valueWidth)

/-- R84: `BankInsert(i, b)`. In GAg it answers V2, as its read does (notes/assumptions/14.md). -/
def bankInsert (i : Bits) (b : Bit) (s : State) : Except Stop State := do
  let (h, s) ← bankRead i s
  bankWrite i (shiftInsert h b) s

/-- R86: `PhtGet(k)`; a key of another width than `KW` is V2 (R161). -/
def phtGet (k : Bits) (s : State) : Except Stop (Option Bits) :=
  if k.length = keyWidth s.cfg then .ok (tableGet s.pht k) else .error (.violation .valueWidth)

/-- R87: `PhtPut(k, v)`. -/
def phtPut (k v : Bits) (s : State) : Except Stop State :=
  if k.length = keyWidth s.cfg ∧ v.length = s.cfg.S then .ok (s.setPht (tablePut s.pht k v))
  else .error (.violation .valueWidth)

/-- R88: `PhtPutIfAbsent(k, d)`. -/
def phtPutIfAbsent (k d : Bits) (s : State) : Except Stop State :=
  if k.length = keyWidth s.cfg ∧ d.length = s.cfg.S then .ok (s.setPht (tablePutIfAbsent s.pht k d))
  else .error (.violation .valueWidth)

/-- R125 step 2: the block at a key, reconstructed as `zeros(S)` where the key is absent. -/
def phtGetOrZero (k : Bits) (s : State) : Except Stop Bits := do
  let c ← phtGet k s
  return c.getD (zeros s.cfg.S)

/-- R89: `PhtGetOrInsertDefault(k)`. After the insertion the key is present. -/
def phtGetOrInsertDefault (k : Bits) (s : State) : Except Stop (Bits × State) := do
  let s ← phtPutIfAbsent k (zeros s.cfg.S) s
  let c ← phtGetOrZero k s
  return (c, s)

/-- R121: `HistRead`. -/
def histRead (i : HistIndex) (s : State) : Except Stop (Bits × State) :=
  match i with
  | .global => .ok (readReg s.bhr, s)
  | .entry index => bankRead index s

/-- R125: `HistWrite`. -/
def histWrite (i : HistIndex) (v : Bits) (s : State) : Except Stop State :=
  match i with
  | .global => .ok (s.setBhr v)
  | .entry index => bankWrite index v s

/-- R180, R181: reset returns the instance to its construction state; the parameters stay, and what the caller
will present at later edges is not the instance's to change. -/
def resetInstance (s : State) : State := (State.fresh s.cfg).setInput s.input

/-- R163, R180: build an instance, or refuse with V3. -/
def construct (p : Params) : Except ViolationCode State :=
  match admittedConfig p with
  | some cfg => .ok (State.fresh cfg)
  | none => .error .configInvalid

/-- R65: the snapshot of a state. -/
def snapshotOf (s : State) : Snapshot :=
  { variant := s.cfg.variant
    H := s.cfg.H
    S := s.cfg.S
    A := s.cfg.A
    K := if hashes s.cfg.variant then some s.cfg.K else none
    bhr := if s.cfg.variant = .GAg then some s.bhr else none
    bank := if s.cfg.variant = .GAg then none else some s.bank
    pht := s.pht
    sc := s.sc
    failed := s.failed }

/-- R52: the signal `pred_valid`. -/
def predValidSignal (s : State) : Bit :=
  match s.resp with
  | .prediction _ => true
  | .none => false
  | .snapshot _ => false
  | .violation _ => false

/-- R52: the signal `pred`, which has a meaning only while `pred_valid = 1`. -/
def predSignal (s : State) : Option Bit :=
  match s.resp with
  | .prediction r => some (bitOf r)
  | .none => none
  | .snapshot _ => none
  | .violation _ => none

/-- R52: the signal `fail`. -/
def failSignal (s : State) : Bit := s.failed

/-- R52, R174: the debug port `mon`. -/
def monSignal (s : State) : Snapshot := snapshotOf s

/-- R52, R53: the clock edge at which a caller presents a command word. -/
def present (cmd : Bits) : ClockEdge := { rst := false, cmdValid := true, cmd := cmd }

/-- R52, R181: the clock edge of a reset. -/
def resetEdge : ClockEdge := { rst := true, cmdValid := false, cmd := [] }

end Sys2Proof.Machine
end

