-- ==== Sys2Proof/Machine/Engine.lean ====
section
/-! DEFINITION. The predictor engine, once for all variants (rules R124, R125, R126): PREDICT, UPDATE and MONITOR over the
two addressing policies. The variants' own operations are in `GAg.lean` to `SAs.lean`. -/

namespace Sys2Proof.Machine

/-- R124: PREDICT. -/
def predict (addr : Bits) (s : State) : Except Stop (State × Response) := do
  checkUsable s
  checkAddr addr s
  let i ← demand (hidx s.cfg addr)
  let (h, s) ← histRead i s
  let key ← demand (tkey s.cfg addr h)
  let (c, s) ← phtGetOrInsertDefault key s
  let sc ← loadReg s.cfg.S c
  return (s.setSc sc, .prediction (predictionOf sc))

/-- R125: UPDATE. The counter is written under the key of the history before the shift. -/
def update (addr : Bits) (actual : BranchResult) (s : State) : Except Stop (State × Response) := do
  checkUsable s
  checkAddr addr s
  let i ← demand (hidx s.cfg addr)
  let (h, s) ← histRead i s
  let key ← demand (tkey s.cfg addr h)
  let c ← phtGetOrZero key s
  let s ← phtPut key (count c (decide (actual = .taken))) s
  let s ← histWrite i (shiftInsert h (bitOf actual)) s
  return (s, .none)

/-- R126: MONITOR, whatever the value of `FAILED`. -/
def monitor (s : State) : Except Stop (State × Response) := .ok (s, .snapshot (snapshotOf s))

end Sys2Proof.Machine
end

