-- ==== Sys2Proof/Machine/GAg.lean ====
section
/-! DEFINITION. The operations of the variant GAg (rules R140, R141, R126): global history, table keyed by the history alone. -/

namespace Sys2Proof.Machine

/-- R140: PREDICT.GAg, the engine's PREDICT under the policies of GAg. -/
def execPredictGAg (addr : Bits) (s : State) : Host.Outcome State Fault Refusal :=
  onVariant .GAg s (predict addr)

/-- R141: UPDATE.GAg, the engine's UPDATE under the policies of GAg. -/
def execUpdateGAg (addr : Bits) (actual : BranchResult) (s : State) : Host.Outcome State Fault Refusal :=
  onVariant .GAg s (update addr actual)

/-- R126: MONITOR.GAg. -/
def execMonitorGAg (s : State) : Host.Outcome State Fault Refusal := onVariant .GAg s monitor

end Sys2Proof.Machine
end

