-- ==== Sys2Proof/Machine/Idle.lean ====
section
/-! DEFINITION. NOP (rule R127), the operation every variant shares. -/

namespace Sys2Proof.Machine

/-- R127: the state is unchanged, in every state, and there is no response. -/
def execNop (s : State) : Host.Outcome State Fault Refusal := .next (s.setResp .none)

end Sys2Proof.Machine
end

