-- ==== Sys2Proof/Machine/PAp.lean ====
section
/-! DEFINITION. The operations of the variant PAp (rules R142, R143, R126): history per address, table keyed by address and history. -/

namespace Sys2Proof.Machine

/-- R142: PREDICT.PAp, the engine's PREDICT under the policies of PAp. -/
def execPredictPAp (addr : Bits) (s : State) : Host.Outcome State Fault Refusal :=
  onVariant .PAp s (predict addr)

/-- R143: UPDATE.PAp, the engine's UPDATE under the policies of PAp. -/
def execUpdatePAp (addr : Bits) (actual : BranchResult) (s : State) : Host.Outcome State Fault Refusal :=
  onVariant .PAp s (update addr actual)

/-- R126: MONITOR.PAp. -/
def execMonitorPAp (s : State) : Host.Outcome State Fault Refusal := onVariant .PAp s monitor

end Sys2Proof.Machine
end

