-- ==== Sys2Proof/Machine/PAs.lean ====
section
/-! DEFINITION. The operations of the variant PAs (rules R144, R145, R126): history per address, table keyed by hashed address and history. -/

namespace Sys2Proof.Machine

/-- R144: PREDICT.PAs, the engine's PREDICT under the policies of PAs. -/
def execPredictPAs (addr : Bits) (s : State) : Host.Outcome State Fault Refusal :=
  onVariant .PAs s (predict addr)

/-- R145: UPDATE.PAs, the engine's UPDATE under the policies of PAs. -/
def execUpdatePAs (addr : Bits) (actual : BranchResult) (s : State) : Host.Outcome State Fault Refusal :=
  onVariant .PAs s (update addr actual)

/-- R126: MONITOR.PAs. -/
def execMonitorPAs (s : State) : Host.Outcome State Fault Refusal := onVariant .PAs s monitor

end Sys2Proof.Machine
end

