-- ==== Sys2Proof/Machine/SAp.lean ====
section
/-! DEFINITION. The operations of the variant SAp (rules R146, R147, R126): history per set, table keyed by address and history. -/

namespace Sys2Proof.Machine

/-- R146: PREDICT.SAp, the engine's PREDICT under the policies of SAp. -/
def execPredictSAp (addr : Bits) (s : State) : Host.Outcome State Fault Refusal :=
  onVariant .SAp s (predict addr)

/-- R147: UPDATE.SAp, the engine's UPDATE under the policies of SAp. -/
def execUpdateSAp (addr : Bits) (actual : BranchResult) (s : State) : Host.Outcome State Fault Refusal :=
  onVariant .SAp s (update addr actual)

/-- R126: MONITOR.SAp. -/
def execMonitorSAp (s : State) : Host.Outcome State Fault Refusal := onVariant .SAp s monitor

end Sys2Proof.Machine
end

