-- ==== Sys2Proof/Machine/SAs.lean ====
section
/-! DEFINITION. The operations of the variant SAs (rules R148, R149, R126): history per set, table keyed by hashed address and history. -/

namespace Sys2Proof.Machine

/-- R148: PREDICT.SAs, the engine's PREDICT under the policies of SAs. -/
def execPredictSAs (addr : Bits) (s : State) : Host.Outcome State Fault Refusal :=
  onVariant .SAs s (predict addr)

/-- R149: UPDATE.SAs, the engine's UPDATE under the policies of SAs. -/
def execUpdateSAs (addr : Bits) (actual : BranchResult) (s : State) : Host.Outcome State Fault Refusal :=
  onVariant .SAs s (update addr actual)

/-- R126: MONITOR.SAs. -/
def execMonitorSAs (s : State) : Host.Outcome State Fault Refusal := onVariant .SAs s monitor

end Sys2Proof.Machine
end

