-- ==== Sys2Proof/Machine/Dispatch.lean ====
section
/-! DEFINITION. The dispatch of an operation to its meaning (rule R64), one arm per row of the operation table. -/

namespace Sys2Proof.Machine

/-- R120: the transition of one operation. -/
def exec (i : Instr) (s : State) : Host.Outcome State Fault Refusal :=
  match i with
  | .nop => Sys2Proof.Machine.execNop s
  | .predictGAg addr => Sys2Proof.Machine.execPredictGAg addr s
  | .updateGAg addr actual => Sys2Proof.Machine.execUpdateGAg addr actual s
  | .monitorGAg => Sys2Proof.Machine.execMonitorGAg s
  | .predictPAp addr => Sys2Proof.Machine.execPredictPAp addr s
  | .updatePAp addr actual => Sys2Proof.Machine.execUpdatePAp addr actual s
  | .monitorPAp => Sys2Proof.Machine.execMonitorPAp s
  | .predictPAs addr => Sys2Proof.Machine.execPredictPAs addr s
  | .updatePAs addr actual => Sys2Proof.Machine.execUpdatePAs addr actual s
  | .monitorPAs => Sys2Proof.Machine.execMonitorPAs s
  | .predictSAp addr => Sys2Proof.Machine.execPredictSAp addr s
  | .updateSAp addr actual => Sys2Proof.Machine.execUpdateSAp addr actual s
  | .monitorSAp => Sys2Proof.Machine.execMonitorSAp s
  | .predictSAs addr => Sys2Proof.Machine.execPredictSAs addr s
  | .updateSAs addr actual => Sys2Proof.Machine.execUpdateSAs addr actual s
  | .monitorSAs => Sys2Proof.Machine.execMonitorSAs s

end Sys2Proof.Machine
end

