-- ==== Sys2Proof/Machine/Step.lean ====
section
/-! DEFINITION. One rising clock edge (rules R52, R55, R120, R181): the machine takes the edge the caller drives next,
performs the whole transition and is ready for the following one. -/

namespace Sys2Proof.Machine

/-- R52, R120, R181: one step. With nothing left for the caller to drive, and at an edge with `cmd_valid = 0`, the
state does not change and there is no response; reset takes priority over a command. -/
def step (s : State) : Host.Outcome State Fault Refusal :=
  match s.input with
  | [] => .next (s.setResp .none)
  | edge :: later =>
    if edge.rst then .next (resetInstance (s.setInput later))
    else if edge.cmdValid then
      match decode s.cfg edge.cmd with
      | .ok i => exec i (s.setInput later)
      | .error .shortCommand => .refused .shortCommand
    else .next ((s.setInput later).setResp .none)

/-- The state with a command word placed where `step` takes its next one: at the edge the caller drives next. This
stands for the caller presenting the command (notes/assumptions/2.md). -/
def State.withFetchWord (s : State) (nbits w : Nat) : State :=
  s.setInput (present (wordOfTable s.cfg nbits w) :: s.input)

end Sys2Proof.Machine
end

