-- ==== Sys2Proof/Safety.lean ====
section
/-! DEFINITION. The invariant of the block (rule R18), good states (rule R165), runs and their observation
(rule R184), and the relations between states that statements use (rules R23, R150). -/

namespace Sys2Proof.Machine

/-- R18.1, R18.5 and the canonical form of the tables: the parameters are admitted, every register and every entry
has its fixed width, an element the variant does not have is empty. -/
abbrev State.Wf (s : State) : Prop :=
  legal s.cfg = true ∧
  s.bhr.length = bhrWidth s.cfg ∧
  (Memory.wf s.bank ∧ ∀ e ∈ s.bank, indexWidth s.cfg = some e.1.length ∧ e.2.length = s.cfg.H) ∧
  (Memory.wf s.pht ∧ ∀ e ∈ s.pht, e.1.length = keyWidth s.cfg ∧ e.2.length = s.cfg.S) ∧
  s.sc.length = s.cfg.S

/-- R165: a state that may be the end of a good run. -/
abbrev State.Good (s : State) : Prop := s.Wf ∧ s.failed = false

/-- R161, R184: a response that makes its run a failed run. -/
def isViolation : Response → Bool
  | .violation _ => true
  | .none => false
  | .prediction _ => false
  | .snapshot _ => false

/-- R184: the run over a list of clock edges from a start state: the responses in order and the final state. There
is none where a step is refused. -/
def runEdges : List ClockEdge → State → Option (List Response × State)
  | [], s => some ([], s)
  | edge :: later, s =>
    match step (s.setInput [edge]) with
    | .next s' => (runEdges later s').map fun (rs, t) => (s'.resp :: rs, t)
    | .fault _ => none
    | .refused _ => none

/-- R53: the command words of an instance's port all have `A + 3` bits. -/
abbrev portFits (s : State) : Prop := ∀ e ∈ s.input, e.cmd.length = s.cfg.A + 3

/-- R121: the history bits an index selects; an absent register of the bank reads as cleared (R82). -/
def histBits (s : State) : HistIndex → Bits
  | .global => s.bhr
  | .entry i => readOr s.cfg.H s.bank i

/-- R37, R82: the state after the history register of an index has been read. -/
def touchHist (s : State) : HistIndex → State
  | .global => s
  | .entry i => s.setBank (tablePutIfAbsent s.bank i (zeros s.cfg.H))

/-- R23: two states that differ at most in presence, in the working register and in the response: an entry absent
in one reads in the other as the default. -/
abbrev SameButPresence (s t : State) : Prop :=
  s.cfg = t.cfg ∧ s.bhr = t.bhr ∧ s.failed = t.failed ∧ s.input = t.input ∧
  (∀ i, readOr s.cfg.H s.bank i = readOr t.cfg.H t.bank i) ∧
  (∀ k, readOr s.cfg.S s.pht k = readOr t.cfg.S t.pht k)

/-- R150.2: the same registers and tables in an instance of the variant PAp with the same `H`, `S` and `A`. -/
def asPAp (s : State) : State := { s with cfg := { s.cfg with variant := .PAp, K := 0 } }

end Sys2Proof.Machine
end

