-- ==== Sys2Proof/Certificates/Slice0/Obligations.lean ====
section
/-! DEFINITION. The statements about the model, from the numbered rules of spec/. A docstring names the rules, and where
a clause rests on a decision that spec/92_eei_decisions.md records as the spec's own choice, or on an entry of the
model's assumption log, it says so. -/

open Sys2Proof Sys2Proof.Machine

/-! ## The clock edge, reset and construction -/

/-- R52, R55, R120: a step at an edge that presents a command word runs the decoded operation, once the edge has been
taken from what the caller will present. Model's own: the caller's edges in `input` (notes/assumptions/2.md). -/
def Obligations.StepRunsDecodedCommand : Prop :=
  ∀ (s : State) (edge : ClockEdge) (later : List ClockEdge) (i : Instr),
    s.input = edge :: later → edge.rst = false → edge.cmdValid = true →
    decode s.cfg edge.cmd = .ok i → i.wf s.cfg = true →
    step s = exec i { s with input := later }

/-- R52, R120, R181: an edge without a command leaves the instance as it is, and so does a step for which the caller
presents nothing; an edge with `rst = 1` leaves the construction state whatever `cmd_valid` and `cmd` are. Rests on
decisions D6 and D10 and on notes/assumptions/2.md. -/
def Obligations.EdgesWithoutCommand : Prop :=
  (∀ s : State, s.input = [] → step s = .next { s with resp := .none }) ∧
  (∀ (s : State) (edge : ClockEdge) (later : List ClockEdge), s.input = edge :: later →
    (edge.rst = true → step s = .next { State.fresh s.cfg with input := later }) ∧
    (edge.rst = false → edge.cmdValid = false → step s = .next { s with input := later, resp := .none }))

/-- R19, R180: the values after construction and after reset. Rests on decision D10. That `State.reset` stands for the
parameters `Config.standard` is the model's choice (notes/assumptions/1.md), and so are the empty `input` and the
response at reset (notes/assumptions/2.md, notes/assumptions/3.md). -/
def Obligations.ResetStateValues : Prop :=
  (∀ cfg : Config,
    (cfg.variant = .GAg → (State.fresh cfg).bhr = zeros cfg.H) ∧
    (∀ i, tableGet (State.fresh cfg).bank i = none) ∧
    (∀ k, tableGet (State.fresh cfg).pht k = none) ∧
    (State.fresh cfg).sc = zeros cfg.S ∧
    (State.fresh cfg).failed = false ∧
    (State.fresh cfg).cfg = cfg) ∧
  State.reset = State.fresh Config.standard

/-- R18: the invariant holds after construction and reset of every admitted instance. -/
def Obligations.ResetStateMeetsInvariant : Prop :=
  (∀ cfg : Config, legal cfg = true → (State.fresh cfg).Good) ∧ State.reset.Good

/-- R6, R57, R58, R163: a request is admitted exactly when its variant code is one of 0 to 4, its parameters are in the
legal ranges and its modes are the block's own; an admitted request gives the construction state and any other is
refused with V3. Rests on decisions D4, D5, D8 and D18; that a `K` given to GAg or PAp is not used is the model's
choice (notes/assumptions/8.md). -/
def Obligations.ConstructionAdmitsExactlyLegalParameters : Prop :=
  (∀ (p : Params) (v : Variant), p.variantCode = codeOfVariant v →
    1 ≤ p.H → 1 ≤ p.S → 1 ≤ p.A → p.countMode = .saturating → p.hashMode ≠ some .other →
    (v = .GAg ∨ v = .PAp →
      construct p = .ok (State.fresh { variant := v, H := p.H, S := p.S, A := p.A, K := 0 })) ∧
    (v = .PAs ∨ v = .SAp ∨ v = .SAs → p.hashMode = some .xor → ∀ k, p.K = some k → 1 ≤ k → k ≤ p.A →
      construct p = .ok (State.fresh { variant := v, H := p.H, S := p.S, A := p.A, K := k }))) ∧
  (∀ p : Params,
    (5 ≤ p.variantCode.toNat ∨ p.H = 0 ∨ p.S = 0 ∨ p.A = 0 ∨ p.countMode ≠ .saturating ∨ p.hashMode = some .other ∨
      ((p.variantCode = codeOfVariant .PAs ∨ p.variantCode = codeOfVariant .SAp ∨
          p.variantCode = codeOfVariant .SAs) ∧
        (p.hashMode ≠ some .xor ∨ p.K = none ∨ p.K = some 0 ∨ ∃ k, p.K = some k ∧ p.A < k))) →
    construct p = .error .configInvalid)

/-! ## The command word -/

/-- R53, R54, R64: decoding the canonical command word of an operation gives it back, with every address and every
outcome. Rests on decisions D7 and D8. -/
def Obligations.DecodeEncodeRoundTrip : Prop :=
  ∀ (cfg : Config) (i : Instr), i.wf cfg = true → decode cfg (encode cfg i) = .ok i

/-- R54, R64: the row selected by the variant and the `op` field, for every address of `A` bits and every `actual` bit.
Rests on decisions D7 and D8. The address is a vector of any length: what a word of another length than `A + 3` decodes to
is the model's choice, no rule of the spec (notes/assumptions/5.md). -/
def Obligations.DecodeSelectsRowByVariantAndOp : Prop :=
  ∀ (cfg : Config) (addr : Bits) (a : Bit),
    decode cfg (addr ++ [a, false, false]) = .ok .nop ∧
    (cfg.variant = .GAg →
      decode cfg (addr ++ [a, false, true]) = .ok (.predictGAg addr) ∧
      decode cfg (addr ++ [a, true, false]) = .ok (.updateGAg addr (if a then .taken else .notTaken)) ∧
      decode cfg (addr ++ [a, true, true]) = .ok .monitorGAg) ∧
    (cfg.variant = .PAp →
      decode cfg (addr ++ [a, false, true]) = .ok (.predictPAp addr) ∧
      decode cfg (addr ++ [a, true, false]) = .ok (.updatePAp addr (if a then .taken else .notTaken)) ∧
      decode cfg (addr ++ [a, true, true]) = .ok .monitorPAp) ∧
    (cfg.variant = .PAs →
      decode cfg (addr ++ [a, false, true]) = .ok (.predictPAs addr) ∧
      decode cfg (addr ++ [a, true, false]) = .ok (.updatePAs addr (if a then .taken else .notTaken)) ∧
      decode cfg (addr ++ [a, true, true]) = .ok .monitorPAs) ∧
    (cfg.variant = .SAp →
      decode cfg (addr ++ [a, false, true]) = .ok (.predictSAp addr) ∧
      decode cfg (addr ++ [a, true, false]) = .ok (.updateSAp addr (if a then .taken else .notTaken)) ∧
      decode cfg (addr ++ [a, true, true]) = .ok .monitorSAp) ∧
    (cfg.variant = .SAs →
      decode cfg (addr ++ [a, false, true]) = .ok (.predictSAs addr) ∧
      decode cfg (addr ++ [a, true, false]) = .ok (.updateSAs addr (if a then .taken else .notTaken)) ∧
      decode cfg (addr ++ [a, true, true]) = .ok .monitorSAs)

/-- R53: the integer value of a command word and its width. Rests on decision D7. -/
def Obligations.CommandWordValue : Prop :=
  ∀ (cfg : Config) (addr : Bits) (r : BranchResult), addr.length = cfg.A →
    (∀ i ∈ [Instr.predictGAg addr, .predictPAp addr, .predictPAs addr, .predictSAp addr, .predictSAs addr],
      val (encode cfg i) = val addr * 8 + 1 ∧ (encode cfg i).length = cfg.A + 3) ∧
    (∀ i ∈ [Instr.updateGAg addr r, .updatePAp addr r, .updatePAs addr r, .updateSAp addr r, .updateSAs addr r],
      val (encode cfg i) = val addr * 8 + (if r = .taken then 4 else 0) + 2 ∧
        (encode cfg i).length = cfg.A + 3) ∧
    (∀ i ∈ [Instr.monitorGAg, .monitorPAp, .monitorPAs, .monitorSAp, .monitorSAs],
      val (encode cfg i) = 3 ∧ (encode cfg i).length = cfg.A + 3) ∧
    val (encode cfg .nop) = 0 ∧ (encode cfg .nop).length = cfg.A + 3

/-- R56: the fields an operation does not use affect neither its transition nor its response: NOP and MONITOR ignore
`actual` and `addr`, PREDICT ignores `actual`, and in GAg PREDICT and UPDATE ignore the value of `addr` (R123, R150).
Rests on decisions D7 and D15. The rules speak of words of `A + 3` bits. The addresses here are vectors of any length, for
NOP and MONITOR of two lengths even: how words of another length than `A + 3` are read is the model's choice, no rule of
the spec (notes/assumptions/5.md). -/
def Obligations.IgnoredFieldsHaveNoEffect : Prop :=
  ∀ (s : State) (later : List ClockEdge) (addr addr' : Bits) (a a' : Bit),
    (∀ op ∈ [[false, false], [true, true]],
      step { s with input := present (addr ++ a :: op) :: later } =
        step { s with input := present (addr' ++ a' :: op) :: later }) ∧
    step { s with input := present (addr ++ [a, false, true]) :: later } =
      step { s with input := present (addr ++ [a', false, true]) :: later } ∧
    (s.cfg.variant = .GAg → addr.length = addr'.length →
      step { s with input := present (addr ++ [a, false, true]) :: later } =
        step { s with input := present (addr' ++ [a, false, true]) :: later } ∧
      step { s with input := present (addr ++ [a, true, false]) :: later } =
        step { s with input := present (addr' ++ [a, true, false]) :: later })

/-- R54, R60: all `2^(A+3)` command words are defined operations of the instance. Rests on decision D7. -/
def Obligations.EveryCommandWordIsAnOperation : Prop :=
  ∀ (cfg : Config) (cmd : Bits), cmd.length = cfg.A + 3 → ∃ i, decode cfg cmd = .ok i ∧ i.wf cfg = true

/-- R53, R62: command words written out in 95_test_vectors.md (S1, PROG2, PROG3). -/
def Obligations.SampleWordsDecode : Prop :=
  decode { variant := .GAg, H := 2, S := 2, A := 4, K := 0 } [true, false, true, false, false, false, true] =
    .ok (.predictGAg [true, false, true, false]) ∧
  decode { variant := .GAg, H := 2, S := 2, A := 4, K := 0 } [true, false, true, false, true, true, false] =
    .ok (.updateGAg [true, false, true, false] .taken) ∧
  decode { variant := .PAp, H := 2, S := 2, A := 3, K := 0 } [false, true, false, false, true, false] =
    .ok (.updatePAp [false, true, false] .notTaken) ∧
  decode { variant := .SAs, H := 2, S := 2, A := 4, K := 2 } [false, false, false, true, true, true, false] =
    .ok (.updateSAs [false, false, false, true] .taken)

/-- The model's own stops (notes/assumptions/5.md, notes/assumptions/7.md), each where the spec has no operation: a
command word with no `op` and `actual` fields (R53), an operation of another variant (R64), an instance whose
parameters are not admitted (R163). -/
def Obligations.RefusedFormsStopByName : Prop :=
  (∀ (s : State) (edge : ClockEdge) (later : List ClockEdge), s.input = edge :: later → edge.rst = false →
    edge.cmdValid = true → edge.cmd.length < 3 → step s = .refused .shortCommand) ∧
  (∀ (s : State) (v : Variant) (addr : Bits) (r : BranchResult),
    ∀ i ∈ [predictInstr v addr, updateInstr v addr r, monitorInstr v],
      (legal s.cfg = false → exec i s = .refused .noInstance) ∧
      (legal s.cfg = true → s.cfg.variant ≠ v → exec i s = .refused .otherVariant))

/-! ## Vectors and combinational logic -/

/-- R7: `val` and `vec_n` are inverse to each other and `val` reads a concatenation with its left operand the more
significant. Rests on decisions D1 and D3. -/
def Obligations.VectorValues : Prop :=
  (∀ v : Bits, val v < 2 ^ v.length ∧ vec v.length (val v) = v) ∧
  (∀ n m : Nat, m < 2 ^ n → val (vec n m) = m ∧ (vec n m).length = n) ∧
  (∀ x y : Bits, val (x ++ y) = val x * 2 ^ y.length + val y) ∧
  (∀ n : Nat, val (zeros n) = 0 ∧ (zeros n).length = n)

/-- R76: shift-in insertion. -/
def Obligations.InsertShiftsOnePosition : Prop :=
  (∀ (r : Bits) (b : Bit), 1 ≤ r.length →
    (shiftInsert r b).length = r.length ∧
    (∀ i, i + 2 ≤ r.length → (shiftInsert r b)[i]? = r[i + 1]?) ∧
    (shiftInsert r b)[r.length - 1]? = some b ∧
    val (shiftInsert r b) = (2 * val r + b.toNat) % 2 ^ r.length) ∧
  (∀ r bs : Bits, bs.length = r.length → bs.foldl shiftInsert r = bs)

/-- R100: the saturating counter step. -/
def Obligations.CountStepsAndClamps : Prop :=
  (∀ b : Bit, count [b] true = [true] ∧ count [b] false = [false]) ∧
  ∀ c : Bits, 1 ≤ c.length →
    (count c true).length = c.length ∧ (count c false).length = c.length ∧
    val (count c true) = min (val c + 1) (2 ^ c.length - 1) ∧
    val (count c false) = max ((val c : Int) - 1) 0 ∧
    count (List.replicate c.length true) true = List.replicate c.length true ∧
    count (zeros c.length) false = zeros c.length

/-- R101, R102: `n` steps in one direction, with the corrected bound of conflict C1. -/
def Obligations.CountConverges : Prop :=
  ∀ (c : Bits) (n : Nat),
    val ((fun c => count c true)^[n] c) = min (val c + n) (2 ^ c.length - 1) ∧
    val ((fun c => count c false)^[n] c) = val c - n ∧
    (2 ^ c.length - 1 ≤ n →
      (fun c => count c true)^[n] c = List.replicate c.length true ∧
      (fun c => count c false)^[n] c = zeros c.length)

/-- R103: the prediction bit is the counter's upper half, and a default block first predicts TAKEN after `2^(S-1)`
TAKEN steps. -/
def Obligations.PredictionIsUpperHalf : Prop :=
  (∀ c : Bits, 1 ≤ c.length → (predictionOf c = .taken ↔ 2 ^ (c.length - 1) ≤ val c)) ∧
  (∀ S n : Nat, 1 ≤ S →
    (predictionOf ((fun c => count c true)^[n] (zeros S)) = .taken ↔ 2 ^ (S - 1) ≤ n))

/-- R105, R107: bucket `j` of the fold is the exclusive or of the bits at the positions congruent to `j`, and outside
`1 ≤ K ≤ N` the fold gives no value. Rests on decisions D2 and D5. -/
def Obligations.HashFoldsRoundRobin : Prop :=
  (∀ (x : Bits) (K : Nat), 1 ≤ K → K ≤ x.length →
    ∃ y, hashFold x K = some y ∧ y.length = K ∧
      ∀ j, j < K →
        y[j]? = some (((x.zipIdx.filter fun e => e.2 % K = j).map Prod.fst).foldl xorBit false)) ∧
  (∀ (x : Bits) (K : Nat), K = 0 ∨ x.length < K → hashFold x K = none)

/-- R106: identity at full width, parity at width 1, linearity, the zero vector, and when two addresses share a set. -/
def Obligations.HashAlgebra : Prop :=
  (∀ x : Bits, 1 ≤ x.length → hashFold x x.length = some x ∧ hashFold x 1 = some [x.foldl xorBit false]) ∧
  (∀ N K : Nat, 1 ≤ K → K ≤ N → hashFold (zeros N) K = some (zeros K)) ∧
  (∀ (x y : Bits) (K : Nat), x.length = y.length → 1 ≤ K → K ≤ x.length →
    ∃ a b, hashFold x K = some a ∧ hashFold y K = some b ∧
      hashFold (List.zipWith xorBit x y) K = some (List.zipWith xorBit a b) ∧
      (a = b ↔ hashFold (List.zipWith xorBit x y) K = some (zeros K)))

/-! ## The bank and the table -/

/-- R82: `BankRead`. -/
def Obligations.BankReadCreatesClearedRegister : Prop :=
  ∀ (s : State) (i : Bits), indexWidth s.cfg = some i.length →
    (tableGet s.bank i = none → ∃ t : Table, bankRead i s = .ok (zeros s.cfg.H, { s with bank := t }) ∧
      tableGet t i = some (zeros s.cfg.H) ∧ ∀ j, j ≠ i → tableGet t j = tableGet s.bank j) ∧
    (∀ v, tableGet s.bank i = some v → bankRead i s = .ok (v, s))

/-- R83: `BankWrite`. -/
def Obligations.BankWriteStoresOneRegister : Prop :=
  ∀ (s : State) (i : Bits), indexWidth s.cfg = some i.length →
    (∀ v : Bits, v.length = s.cfg.H → ∃ t : Table, bankWrite i v s = .ok { s with bank := t } ∧
      tableGet t i = some v ∧ ∀ j, j ≠ i → tableGet t j = tableGet s.bank j) ∧
    (∀ v : Bits, v.length ≠ s.cfg.H → bankWrite i v s = .error (.violation .valueWidth))

/-- R84: `BankInsert` shifts one bit into one register of the bank. -/
def Obligations.BankInsertShiftsOneRegister : Prop :=
  ∀ (s : State) (i : Bits) (b : Bit), indexWidth s.cfg = some i.length →
    (∀ v, tableGet s.bank i = some v → v.length = s.cfg.H) →
    ∃ t : Table, bankInsert i b s = .ok { s with bank := t } ∧
      tableGet t i = some (shiftInsert ((tableGet s.bank i).getD (zeros s.cfg.H)) b) ∧
      ∀ j, j ≠ i → tableGet t j = tableGet s.bank j

/-- R86, R87, R88: `get`, `put` and `putIfAbsent` of the pattern history table. -/
def Obligations.PhtGetPutPutIfAbsent : Prop :=
  ∀ (s : State) (k : Bits), k.length = keyWidth s.cfg →
    phtGet k s = .ok (tableGet s.pht k) ∧
    (∀ v : Bits, v.length = s.cfg.S →
      (∃ t : Table, phtPut k v s = .ok { s with pht := t } ∧ tableGet t k = some v ∧
        ∀ k', k' ≠ k → tableGet t k' = tableGet s.pht k') ∧
      (tableGet s.pht k = none → ∃ t : Table, phtPutIfAbsent k v s = .ok { s with pht := t } ∧
        tableGet t k = some v ∧ ∀ k', k' ≠ k → tableGet t k' = tableGet s.pht k') ∧
      (tableGet s.pht k ≠ none → phtPutIfAbsent k v s = .ok s)) ∧
    (∀ v : Bits, v.length ≠ s.cfg.S → phtPut k v s = .error (.violation .valueWidth)) ∧
    (∀ d d' : Bits, d.length = s.cfg.S → d'.length = s.cfg.S →
      ∃ s', phtPutIfAbsent k d s = .ok s' ∧ phtPutIfAbsent k d' s' = .ok s')

/-- R89, R90: `PhtGetOrInsertDefault` never answers `ABSENT`, and a first-time key predicts NOT_TAKEN. -/
def Obligations.PhtGetOrInsertDefaultAnswers : Prop :=
  ∀ (s : State) (k : Bits), k.length = keyWidth s.cfg →
    ∃ (c : Bits) (t : Table), phtGetOrInsertDefault k s = .ok (c, { s with pht := t }) ∧ tableGet t k = some c ∧
      (∀ k', k' ≠ k → tableGet t k' = tableGet s.pht k') ∧
      (∀ v, tableGet s.pht k = some v → c = v ∧ t = s.pht) ∧
      (tableGet s.pht k = none → c = zeros s.cfg.S ∧ predictionOf c = .notTaken)

/-- R77, R81, R161: a value, an index or a key of the wrong width is a violation of class V2. Rests on decisions D17
and D19. In GAg, which has no bank and so no index width (R11, R30), no index has the bank's width: that a bank access
there is V2 as well is the model's choice, no rule of the spec (notes/assumptions/14.md). -/
def Obligations.WrongWidthsAreValueViolations : Prop :=
  (∀ (n : Nat) (v : Bits), (v.length = n → loadReg n v = .ok v) ∧
    (v.length ≠ n → loadReg n v = .error (.violation .valueWidth))) ∧
  (∀ (s : State) (i v : Bits), indexWidth s.cfg ≠ some i.length →
    bankRead i s = .error (.violation .valueWidth) ∧ bankWrite i v s = .error (.violation .valueWidth)) ∧
  (∀ (s : State) (k v : Bits), k.length ≠ keyWidth s.cfg →
    phtGet k s = .error (.violation .valueWidth) ∧ phtPut k v s = .error (.violation .valueWidth) ∧
    phtPutIfAbsent k v s = .error (.violation .valueWidth))

/-- R33, R71: two canonical tables that read alike at every key are the same data, and a write to one key leaves every
other key alone. The sorted form is the model's choice (notes/assumptions/9.md). -/
def Obligations.CanonicalTablesAreMaps : Prop :=
  (∀ t t' : Table, Memory.wf t → Memory.wf t' → (∀ k, tableGet t k = tableGet t' k) → t = t') ∧
  (∀ (t : Table) (k v k' v' : Bits), Memory.wf t → k ≠ k' →
    tablePut (tablePut t k v) k' v' = tablePut (tablePut t k' v') k v)

/-! ## The addressing policies -/

/-- R121, R122: the two policies, variant by variant, and the history bits an index reads, which are always `H`. -/
def Obligations.AddressingPolicies : Prop :=
  (∀ (s : State) (i : Bits), histRead .global s = .ok (s.bhr, s) ∧ histRead (.entry i) s = bankRead i s) ∧
  (∀ (s s' : State) (addr h : Bits) (i : HistIndex), s.Wf → hidx s.cfg addr = some i →
    histRead i s = .ok (h, s') → h.length = s.cfg.H) ∧
  ∀ (cfg : Config) (addr h : Bits),
    (cfg.variant = .GAg → hidx cfg addr = some .global ∧ tkey cfg addr h = some h) ∧
    (cfg.variant = .PAp → hidx cfg addr = some (.entry addr) ∧ tkey cfg addr h = some (addr ++ h)) ∧
    (∀ g, hashFold addr cfg.K = some g → g.length = cfg.K ∧
      (cfg.variant = .PAs → hidx cfg addr = some (.entry addr) ∧ tkey cfg addr h = some (g ++ h)) ∧
      (cfg.variant = .SAp → hidx cfg addr = some (.entry g) ∧ tkey cfg addr h = some (addr ++ h)) ∧
      (cfg.variant = .SAs → hidx cfg addr = some (.entry g) ∧ tkey cfg addr h = some (g ++ h)))

/-- R11, R59, R81: on an admitted instance every address of its width has an index of width `IW` and every history a
key of width `KW`. -/
def Obligations.IndexAndKeyWidths : Prop :=
  ∀ (cfg : Config) (addr h : Bits), legal cfg = true → addr.length = cfg.A → h.length = cfg.H →
    ∃ i key, hidx cfg addr = some i ∧ tkey cfg addr h = some key ∧
      (cfg.variant = .GAg → i = .global ∧ key.length = cfg.H) ∧
      (cfg.variant = .PAp → ∃ j, i = .entry j ∧ j.length = cfg.A ∧ key.length = cfg.A + cfg.H) ∧
      (cfg.variant = .PAs → ∃ j, i = .entry j ∧ j.length = cfg.A ∧ key.length = cfg.K + cfg.H) ∧
      (cfg.variant = .SAp → ∃ j, i = .entry j ∧ j.length = cfg.K ∧ key.length = cfg.A + cfg.H) ∧
      (cfg.variant = .SAs → ∃ j, i = .entry j ∧ j.length = cfg.K ∧ key.length = cfg.K + cfg.H)

/-- R33: when two operations reach the same table entry and the same history register. -/
def Obligations.AliasingIsKeyEquality : Prop :=
  ∀ (cfg : Config) (a b h g : Bits), legal cfg = true → a.length = cfg.A → b.length = cfg.A →
    h.length = cfg.H → g.length = cfg.H →
    (cfg.variant = .GAg → (tkey cfg a h = tkey cfg b g ↔ h = g) ∧ hidx cfg a = hidx cfg b) ∧
    (cfg.variant = .PAp → (tkey cfg a h = tkey cfg b g ↔ a = b ∧ h = g) ∧ (hidx cfg a = hidx cfg b ↔ a = b)) ∧
    (cfg.variant = .PAs → (tkey cfg a h = tkey cfg b g ↔ hashFold a cfg.K = hashFold b cfg.K ∧ h = g) ∧
      (hidx cfg a = hidx cfg b ↔ a = b)) ∧
    (cfg.variant = .SAp → (tkey cfg a h = tkey cfg b g ↔ a = b ∧ h = g) ∧
      (hidx cfg a = hidx cfg b ↔ hashFold a cfg.K = hashFold b cfg.K)) ∧
    (cfg.variant = .SAs → (tkey cfg a h = tkey cfg b g ↔ hashFold a cfg.K = hashFold b cfg.K ∧ h = g) ∧
      (hidx cfg a = hidx cfg b ↔ hashFold a cfg.K = hashFold b cfg.K))

/-! ## The operations, one variant at a time

Each states the whole rule: the effect on a usable instance, the refusal V0 of a failed one (a line of the rule that
rests on decision D14) and the violation V1 (decisions D14, D15, D19). -/

/-- R140: PREDICT.GAg. -/
def Obligations.PredictGAgEffect : Prop :=
  ∀ (s : State) (addr : Bits), s.Wf → s.cfg.variant = .GAg →
    (s.failed = false → addr.length = s.cfg.A →
      exec (.predictGAg addr) s = .next { s with
        pht := tablePutIfAbsent s.pht s.bhr (zeros s.cfg.S)
        sc := readOr s.cfg.S s.pht s.bhr
        resp := .prediction (predictionOf (readOr s.cfg.S s.pht s.bhr)) }) ∧
    (s.failed = true → exec (.predictGAg addr) s = .next { s with resp := .violation .failedEarlier }) ∧
    (s.failed = false → addr.length ≠ s.cfg.A →
      exec (.predictGAg addr) s = .next { s with failed := true, resp := .violation .addrWidth })

/-- R141: UPDATE.GAg. -/
def Obligations.UpdateGAgEffect : Prop :=
  ∀ (s : State) (addr : Bits) (actual : BranchResult), s.Wf → s.cfg.variant = .GAg →
    (s.failed = false → addr.length = s.cfg.A →
      exec (.updateGAg addr actual) s = .next { s with
        pht := tablePut s.pht s.bhr (count (readOr s.cfg.S s.pht s.bhr) (decide (actual = .taken)))
        bhr := shiftInsert s.bhr (bitOf actual)
        resp := .none }) ∧
    (s.failed = true → exec (.updateGAg addr actual) s = .next { s with resp := .violation .failedEarlier }) ∧
    (s.failed = false → addr.length ≠ s.cfg.A →
      exec (.updateGAg addr actual) s = .next { s with failed := true, resp := .violation .addrWidth })

/-- R142: PREDICT.PAp. -/
def Obligations.PredictPApEffect : Prop :=
  ∀ (s : State) (addr : Bits), s.Wf → s.cfg.variant = .PAp →
    (s.failed = false → addr.length = s.cfg.A → ∀ h key, h = readOr s.cfg.H s.bank addr → key = addr ++ h →
      exec (.predictPAp addr) s = .next { s with
        bank := tablePutIfAbsent s.bank addr (zeros s.cfg.H)
        pht := tablePutIfAbsent s.pht key (zeros s.cfg.S)
        sc := readOr s.cfg.S s.pht key
        resp := .prediction (predictionOf (readOr s.cfg.S s.pht key)) }) ∧
    (s.failed = true → exec (.predictPAp addr) s = .next { s with resp := .violation .failedEarlier }) ∧
    (s.failed = false → addr.length ≠ s.cfg.A →
      exec (.predictPAp addr) s = .next { s with failed := true, resp := .violation .addrWidth })

/-- R143: UPDATE.PAp. -/
def Obligations.UpdatePApEffect : Prop :=
  ∀ (s : State) (addr : Bits) (actual : BranchResult), s.Wf → s.cfg.variant = .PAp →
    (s.failed = false → addr.length = s.cfg.A → ∀ h key, h = readOr s.cfg.H s.bank addr → key = addr ++ h →
      exec (.updatePAp addr actual) s = .next { s with
        pht := tablePut s.pht key (count (readOr s.cfg.S s.pht key) (decide (actual = .taken)))
        bank := tablePut s.bank addr (shiftInsert h (bitOf actual))
        resp := .none }) ∧
    (s.failed = true → exec (.updatePAp addr actual) s = .next { s with resp := .violation .failedEarlier }) ∧
    (s.failed = false → addr.length ≠ s.cfg.A →
      exec (.updatePAp addr actual) s = .next { s with failed := true, resp := .violation .addrWidth })

/-- R144: PREDICT.PAs. -/
def Obligations.PredictPAsEffect : Prop :=
  ∀ (s : State) (addr : Bits), s.Wf → s.cfg.variant = .PAs →
    (s.failed = false → addr.length = s.cfg.A →
      ∃ g, hashFold addr s.cfg.K = some g ∧ ∀ h key, h = readOr s.cfg.H s.bank addr → key = g ++ h →
        exec (.predictPAs addr) s = .next { s with
          bank := tablePutIfAbsent s.bank addr (zeros s.cfg.H)
          pht := tablePutIfAbsent s.pht key (zeros s.cfg.S)
          sc := readOr s.cfg.S s.pht key
          resp := .prediction (predictionOf (readOr s.cfg.S s.pht key)) }) ∧
    (s.failed = true → exec (.predictPAs addr) s = .next { s with resp := .violation .failedEarlier }) ∧
    (s.failed = false → addr.length ≠ s.cfg.A →
      exec (.predictPAs addr) s = .next { s with failed := true, resp := .violation .addrWidth })

/-- R145: UPDATE.PAs. The bank is written at the full address, not at the hash. -/
def Obligations.UpdatePAsEffect : Prop :=
  ∀ (s : State) (addr : Bits) (actual : BranchResult), s.Wf → s.cfg.variant = .PAs →
    (s.failed = false → addr.length = s.cfg.A →
      ∃ g, hashFold addr s.cfg.K = some g ∧ ∀ h key, h = readOr s.cfg.H s.bank addr → key = g ++ h →
        exec (.updatePAs addr actual) s = .next { s with
          pht := tablePut s.pht key (count (readOr s.cfg.S s.pht key) (decide (actual = .taken)))
          bank := tablePut s.bank addr (shiftInsert h (bitOf actual))
          resp := .none }) ∧
    (s.failed = true → exec (.updatePAs addr actual) s = .next { s with resp := .violation .failedEarlier }) ∧
    (s.failed = false → addr.length ≠ s.cfg.A →
      exec (.updatePAs addr actual) s = .next { s with failed := true, resp := .violation .addrWidth })

/-- R146: PREDICT.SAp. -/
def Obligations.PredictSApEffect : Prop :=
  ∀ (s : State) (addr : Bits), s.Wf → s.cfg.variant = .SAp →
    (s.failed = false → addr.length = s.cfg.A →
      ∃ g, hashFold addr s.cfg.K = some g ∧ ∀ h key, h = readOr s.cfg.H s.bank g → key = addr ++ h →
        exec (.predictSAp addr) s = .next { s with
          bank := tablePutIfAbsent s.bank g (zeros s.cfg.H)
          pht := tablePutIfAbsent s.pht key (zeros s.cfg.S)
          sc := readOr s.cfg.S s.pht key
          resp := .prediction (predictionOf (readOr s.cfg.S s.pht key)) }) ∧
    (s.failed = true → exec (.predictSAp addr) s = .next { s with resp := .violation .failedEarlier }) ∧
    (s.failed = false → addr.length ≠ s.cfg.A →
      exec (.predictSAp addr) s = .next { s with failed := true, resp := .violation .addrWidth })

/-- R147: UPDATE.SAp. The bank is written at the hash, the same index that was read. -/
def Obligations.UpdateSApEffect : Prop :=
  ∀ (s : State) (addr : Bits) (actual : BranchResult), s.Wf → s.cfg.variant = .SAp →
    (s.failed = false → addr.length = s.cfg.A →
      ∃ g, hashFold addr s.cfg.K = some g ∧ ∀ h key, h = readOr s.cfg.H s.bank g → key = addr ++ h →
        exec (.updateSAp addr actual) s = .next { s with
          pht := tablePut s.pht key (count (readOr s.cfg.S s.pht key) (decide (actual = .taken)))
          bank := tablePut s.bank g (shiftInsert h (bitOf actual))
          resp := .none }) ∧
    (s.failed = true → exec (.updateSAp addr actual) s = .next { s with resp := .violation .failedEarlier }) ∧
    (s.failed = false → addr.length ≠ s.cfg.A →
      exec (.updateSAp addr actual) s = .next { s with failed := true, resp := .violation .addrWidth })

/-- R148: PREDICT.SAs. -/
def Obligations.PredictSAsEffect : Prop :=
  ∀ (s : State) (addr : Bits), s.Wf → s.cfg.variant = .SAs →
    (s.failed = false → addr.length = s.cfg.A →
      ∃ g, hashFold addr s.cfg.K = some g ∧ ∀ h key, h = readOr s.cfg.H s.bank g → key = g ++ h →
        exec (.predictSAs addr) s = .next { s with
          bank := tablePutIfAbsent s.bank g (zeros s.cfg.H)
          pht := tablePutIfAbsent s.pht key (zeros s.cfg.S)
          sc := readOr s.cfg.S s.pht key
          resp := .prediction (predictionOf (readOr s.cfg.S s.pht key)) }) ∧
    (s.failed = true → exec (.predictSAs addr) s = .next { s with resp := .violation .failedEarlier }) ∧
    (s.failed = false → addr.length ≠ s.cfg.A →
      exec (.predictSAs addr) s = .next { s with failed := true, resp := .violation .addrWidth })

/-- R149: UPDATE.SAs. -/
def Obligations.UpdateSAsEffect : Prop :=
  ∀ (s : State) (addr : Bits) (actual : BranchResult), s.Wf → s.cfg.variant = .SAs →
    (s.failed = false → addr.length = s.cfg.A →
      ∃ g, hashFold addr s.cfg.K = some g ∧ ∀ h key, h = readOr s.cfg.H s.bank g → key = g ++ h →
        exec (.updateSAs addr actual) s = .next { s with
          pht := tablePut s.pht key (count (readOr s.cfg.S s.pht key) (decide (actual = .taken)))
          bank := tablePut s.bank g (shiftInsert h (bitOf actual))
          resp := .none }) ∧
    (s.failed = true → exec (.updateSAs addr actual) s = .next { s with resp := .violation .failedEarlier }) ∧
    (s.failed = false → addr.length ≠ s.cfg.A →
      exec (.updateSAs addr actual) s = .next { s with failed := true, resp := .violation .addrWidth })

/-- R65, R126, R127: NOP changes nothing in any state and has no response; MONITOR of every variant answers the
snapshot of all state and changes nothing, whatever the value of `FAILED`. Rests on decisions D7 and D16. -/
def Obligations.NopAndMonitorChangeNothing : Prop :=
  (∀ s : State, exec .nop s = .next { s with resp := .none }) ∧
  ∀ s : State, legal s.cfg = true →
    (s.cfg.variant = .GAg → exec .monitorGAg s = .next { s with
      resp := .snapshot
        { variant := .GAg, H := s.cfg.H, S := s.cfg.S, A := s.cfg.A, K := none, bhr := some s.bhr, bank := none,
          pht := s.pht, sc := s.sc, failed := s.failed } }) ∧
    (s.cfg.variant = .PAp → exec .monitorPAp s = .next { s with
      resp := .snapshot
        { variant := .PAp, H := s.cfg.H, S := s.cfg.S, A := s.cfg.A, K := none, bhr := none, bank := some s.bank,
          pht := s.pht, sc := s.sc, failed := s.failed } }) ∧
    (s.cfg.variant = .PAs → exec .monitorPAs s = .next { s with
      resp := .snapshot
        { variant := .PAs, H := s.cfg.H, S := s.cfg.S, A := s.cfg.A, K := some s.cfg.K, bhr := none,
          bank := some s.bank, pht := s.pht, sc := s.sc, failed := s.failed } }) ∧
    (s.cfg.variant = .SAp → exec .monitorSAp s = .next { s with
      resp := .snapshot
        { variant := .SAp, H := s.cfg.H, S := s.cfg.S, A := s.cfg.A, K := some s.cfg.K, bhr := none,
          bank := some s.bank, pht := s.pht, sc := s.sc, failed := s.failed } }) ∧
    (s.cfg.variant = .SAs → exec .monitorSAs s = .next { s with
      resp := .snapshot
        { variant := .SAs, H := s.cfg.H, S := s.cfg.S, A := s.cfg.A, K := some s.cfg.K, bhr := none,
          bank := some s.bank, pht := s.pht, sc := s.sc, failed := s.failed } })

/-! ## Violations -/

/-- R17, R164: an operation that responds with a violation changes nothing else but `FAILED`, and after any operation
`FAILED` is 1 exactly when it was 1 before or the operation responded with a violation. Rests on decision D14. -/
def Obligations.ViolationSetsOnlyFailureFlag : Prop :=
  (∀ (i : Instr) (s t : State) (code : ViolationCode), exec i s = .next t → t.resp = .violation code →
    t = { s with failed := true, resp := .violation code }) ∧
  (∀ (i : Instr) (s t : State), exec i s = .next t →
    (t.failed = true ↔ s.failed = true ∨ isViolation t.resp = true))

/-- R165, R166: on a failed instance PREDICT and UPDATE respond V0 whatever their address, and change nothing; MONITOR
still answers and NOP still does nothing. Rests on decision D14. -/
def Obligations.FailedInstanceRefuses : Prop :=
  ∀ (s : State) (v : Variant) (addr : Bits) (actual : BranchResult), legal s.cfg = true → s.cfg.variant = v →
    s.failed = true →
    exec (predictInstr v addr) s = .next { s with resp := .violation .failedEarlier } ∧
    exec (updateInstr v addr actual) s = .next { s with resp := .violation .failedEarlier } ∧
    (∃ view : Snapshot, exec (monitorInstr v) s = .next { s with resp := .snapshot view } ∧ view.failed = true ∧
      view.pht = s.pht ∧ view.sc = s.sc) ∧
    exec .nop s = .next { s with resp := .none }

/-- R184: a run without reset from a state with `FAILED = 0` ends with `FAILED = 1` exactly when some operation of it
responded with a violation. Rests on decision D14. -/
def Obligations.FailedRunsHaveAViolation : Prop :=
  ∀ (edges : List ClockEdge) (s t : State) (responses : List Response),
    (∀ e ∈ edges, e.rst = false) → s.failed = false → runEdges edges s = some (responses, t) →
    responses.length = edges.length ∧
    (t.failed = true ↔ ∃ r ∈ responses, isViolation r = true)

/-! ## Frames -/

/-- R124, R128: what PREDICT leaves unchanged in every variant. It writes the working register, may make the selected
bank register present and may make the selected table entry present; no history register's bits and no present entry
change. -/
def Obligations.PredictFrame : Prop :=
  ∀ (v : Variant) (addr : Bits) (s t : State), exec (predictInstr v addr) s = .next t →
    t.cfg = s.cfg ∧ t.bhr = s.bhr ∧ t.input = s.input ∧
    (t.failed = s.failed ∨ (isViolation t.resp = true ∧ t.sc = s.sc)) ∧
    (∀ j, hidx s.cfg addr ≠ some (.entry j) → tableGet t.bank j = tableGet s.bank j) ∧
    (∀ j w, tableGet s.bank j = some w → tableGet t.bank j = some w) ∧
    (∀ j, tableGet s.bank j = none → tableGet t.bank j = none ∨ tableGet t.bank j = some (zeros s.cfg.H)) ∧
    (∀ i k, hidx s.cfg addr = some i → tkey s.cfg addr (histBits s i) ≠ some k →
      tableGet t.pht k = tableGet s.pht k) ∧
    (∀ k w, tableGet s.pht k = some w → tableGet t.pht k = some w) ∧
    (∀ k, tableGet s.pht k = none → tableGet t.pht k = none ∨ tableGet t.pht k = some (zeros s.cfg.S))

/-- R125, R16: what UPDATE leaves unchanged in every variant. It writes the selected history register and the table
entry selected by the history before the shift; it never writes the working register. -/
def Obligations.UpdateFrame : Prop :=
  ∀ (v : Variant) (addr : Bits) (actual : BranchResult) (s t : State),
    exec (updateInstr v addr actual) s = .next t →
    t.cfg = s.cfg ∧ t.sc = s.sc ∧ t.input = s.input ∧
    (t.failed = s.failed ∨ isViolation t.resp = true) ∧
    (v ≠ .GAg → t.bhr = s.bhr) ∧
    (∀ j, hidx s.cfg addr ≠ some (.entry j) → tableGet t.bank j = tableGet s.bank j) ∧
    (∀ i k, hidx s.cfg addr = some i → tkey s.cfg addr (histBits s i) ≠ some k →
      tableGet t.pht k = tableGet s.pht k)

/-! ## Invariants -/

/-- R18.1, R18.5: every step, reset included, keeps the invariant: admitted parameters, fixed widths of every register
and entry, canonical tables, no element the variant does not have. -/
def Obligations.StepKeepsInvariant : Prop :=
  ∀ s t : State, s.Wf → step s = .next t → t.Wf

/-- R5, R18.2, R183: no step changes the parameters, and no step but reset removes a register or an entry. -/
def Obligations.NothingIsForgotten : Prop :=
  ∀ s t : State, step s = .next t →
    t.cfg = s.cfg ∧
    ((∀ edge later, s.input = edge :: later → edge.rst = false) →
      (∀ i, tableGet s.bank i ≠ none → tableGet t.bank i ≠ none) ∧
      (∀ k, tableGet s.pht k ≠ none → tableGet t.pht k ≠ none))

/-- R17, R161: on an instance whose command words have their fixed width, every step answers, no step raises a
violation, and `FAILED` stays 0 for ever. Rests on decisions D14 and D19. -/
def Obligations.FixedWidthPortNeverFails : Prop :=
  ∀ s : State, s.Good → portFits s →
    ∃ t, step s = .next t ∧ t.Good ∧ portFits t ∧ isViolation t.resp = false

/-- R120: the step is total: on an admitted instance every command has a next state, whether or not the instance has
failed. That a word of any length from three bits up carries a command, as one of `A + 3` bits does by R53, is the model's
choice, no rule of the spec (notes/assumptions/5.md). -/
def Obligations.StepIsTotal : Prop :=
  ∀ s : State, legal s.cfg = true → (∀ e ∈ s.input, 3 ≤ e.cmd.length) → ∃ t, step s = .next t

/-! ## What predictions depend on -/

/-- R22: the result of PREDICT is a function of the selected history register and the selected entry. -/
def Obligations.PredictionDependsOnSelectedEntry : Prop :=
  ∀ (s t : State) (v : Variant) (addr key : Bits) (i : HistIndex), s.Good → t.Good → s.cfg = t.cfg →
    s.cfg.variant = v → addr.length = s.cfg.A → hidx s.cfg addr = some i → histBits s i = histBits t i →
    tkey s.cfg addr (histBits s i) = some key → readOr s.cfg.S s.pht key = readOr t.cfg.S t.pht key →
    ∃ u w r, exec (predictInstr v addr) s = .next u ∧ exec (predictInstr v addr) t = .next w ∧
      u.resp = .prediction r ∧ w.resp = .prediction r

/-- R23: presence is invisible to predictions. Two states that differ only in presence (and in `SC`) stay so under every
operation, and every PREDICT, UPDATE and NOP responds alike in both. -/
def Obligations.PresenceIsInvisible : Prop :=
  ∀ (s t : State) (i : Instr), s.Wf → t.Wf → SameButPresence s t → i.wf s.cfg = true →
    ∃ u w, exec i s = .next u ∧ exec i t = .next w ∧ SameButPresence u w ∧
      ((∀ v, i ≠ monitorInstr v) → u.resp = w.resp)

/-- R124: two PREDICTs in a row with the same address give the same result and the second changes nothing. -/
def Obligations.PredictTwiceIsIdempotent : Prop :=
  ∀ (s : State) (v : Variant) (addr : Bits), s.Good → s.cfg.variant = v → addr.length = s.cfg.A →
    ∃ t, exec (predictInstr v addr) s = .next t ∧ exec (predictInstr v addr) t = .next t

/-- R129, R185: an UPDATE of `b` shifts the history register it selects and leaves every other history register's bits,
so it disturbs the pair of an address `a` only when both select the same register. -/
def Obligations.OtherRegistersPairsUndisturbed : Prop :=
  ∀ (s : State) (v : Variant) (b : Bits) (actual : BranchResult), s.Good → s.cfg.variant = v →
    b.length = s.cfg.A →
    ∃ t, exec (updateInstr v b actual) s = .next t ∧
      ∀ a i, hidx s.cfg a = some i →
        (hidx s.cfg b ≠ some i → histBits t i = histBits s i ∧
          tkey t.cfg a (histBits t i) = tkey s.cfg a (histBits s i)) ∧
        (hidx s.cfg b = some i → histBits t i = shiftInsert (histBits s i) (bitOf actual))

/-- R130: after an UPDATE, a PREDICT that selects the key the UPDATE wrote loads the stepped counter and predicts from
its top bit. -/
def Obligations.UpdateTrainsItsKey : Prop :=
  ∀ (s : State) (v : Variant) (addr addr' key : Bits) (i j : HistIndex) (actual : BranchResult), s.Good →
    s.cfg.variant = v → addr.length = s.cfg.A → addr'.length = s.cfg.A →
    hidx s.cfg addr = some i → tkey s.cfg addr (histBits s i) = some key → hidx s.cfg addr' = some j →
    ∃ t, exec (updateInstr v addr actual) s = .next t ∧
      (tkey s.cfg addr' (histBits t j) = some key →
        ∃ u, exec (predictInstr v addr') t = .next u ∧
          u.sc = count (readOr s.cfg.S s.pht key) (decide (actual = .taken)) ∧
          u.resp = .prediction (predictionOf u.sc))

/-- R13, R14: after a run of UPDATEs of any addresses, every history register holds its latest `H` outcomes, newest
last: those it held before, followed by the outcomes of the UPDATEs whose index it is, less the oldest. Rests on
decision D11 for the bank. -/
def Obligations.HistoryHoldsLatestOutcomes : Prop :=
  ∀ (ops : List (Bits × BranchResult)) (s : State), s.Good → (∀ o ∈ ops, o.1.length = s.cfg.A) →
    ∃ responses t, runEdges (ops.map fun o => present (encodeUpdate o.1 o.2)) s = some (responses, t) ∧
      ∀ (a : Bits) (i : HistIndex), a.length = s.cfg.A → hidx s.cfg a = some i →
        ∀ mine : List Bit,
          mine = (ops.filter fun o => decide (hidx s.cfg o.1 = some i)).map (fun o => bitOf o.2) →
          histBits t i = (histBits s i ++ mine).drop mine.length

/-- R21, R52: what the caller sees. A PREDICT that did not fail drives `pred_valid` with the top bit of the loaded
counter on `pred`; no other operation does; UPDATE and NOP return nothing but a violation; `fail` is `FAILED`. Rests
on decision D6. -/
def Obligations.OutputSignals : Prop :=
  ∀ (s t : State) (v : Variant) (addr : Bits) (actual : BranchResult),
    (exec (predictInstr v addr) s = .next t →
      (isViolation t.resp = false → predValidSignal t = true ∧ predSignal t = some (topBit t.sc)) ∧
      (isViolation t.resp = true → predValidSignal t = false ∧ failSignal t = true)) ∧
    (exec (updateInstr v addr actual) s = .next t →
      predValidSignal t = false ∧ (t.resp = .none ∨ (isViolation t.resp = true ∧ failSignal t = true))) ∧
    (exec .nop s = .next t → predValidSignal t = false ∧ t.resp = .none ∧ failSignal t = s.failed) ∧
    (exec (monitorInstr v) s = .next t → predValidSignal t = false ∧ t.resp = .snapshot (monSignal s))

/-! ## Relations between the variants -/

/-- R150.2, R106: with `K = A` the variants PAs, SAp and SAs behave as PAp: the same response and the same state, but
for the variant named in the parameters. -/
def Obligations.FullWidthFoldIsPAp : Prop :=
  ∀ (s : State) (v : Variant) (addr : Bits) (actual : BranchResult), s.Wf → s.cfg.variant = v →
    (v = .PAs ∨ v = .SAp ∨ v = .SAs) → s.cfg.K = s.cfg.A →
    (∃ u, exec (predictInstr v addr) s = .next u ∧ exec (.predictPAp addr) (asPAp s) = .next (asPAp u)) ∧
    (∃ u, exec (updateInstr v addr actual) s = .next u ∧
      exec (.updatePAp addr actual) (asPAp s) = .next (asPAp u))

/-- R150.3: SAs is one GAg predictor per set. When a GAg instance `t` holds the history of the set `g` and the entries
of `g` without the prefix, an operation whose address hashes to `g` responds alike in both and keeps that relation, and
an operation whose address hashes elsewhere keeps it with `t` standing still. -/
def Obligations.SAsIsOneGAgPerSet : Prop :=
  ∀ (s t : State) (g addr a' : Bits) (actual : BranchResult),
    s.Good → t.Good → s.cfg.variant = .SAs → t.cfg.variant = .GAg → t.cfg.H = s.cfg.H → t.cfg.S = s.cfg.S →
    g.length = s.cfg.K → addr.length = s.cfg.A → a'.length = t.cfg.A →
    t.bhr = readOr s.cfg.H s.bank g →
    (∀ h : Bits, h.length = s.cfg.H → tableGet t.pht h = tableGet s.pht (g ++ h)) →
    ∃ s₁ s₂, exec (.predictSAs addr) s = .next s₁ ∧ exec (.updateSAs addr actual) s = .next s₂ ∧
      (hashFold addr s.cfg.K = some g →
        ∃ t₁ t₂, exec (.predictGAg a') t = .next t₁ ∧ exec (.updateGAg a' actual) t = .next t₂ ∧
          t₁.resp = s₁.resp ∧ t₁.bhr = readOr s.cfg.H s₁.bank g ∧
          (∀ h : Bits, h.length = s.cfg.H → tableGet t₁.pht h = tableGet s₁.pht (g ++ h)) ∧
          t₂.resp = s₂.resp ∧ t₂.bhr = readOr s.cfg.H s₂.bank g ∧
          (∀ h : Bits, h.length = s.cfg.H → tableGet t₂.pht h = tableGet s₂.pht (g ++ h))) ∧
      (hashFold addr s.cfg.K ≠ some g →
        t.bhr = readOr s.cfg.H s₁.bank g ∧ t.bhr = readOr s.cfg.H s₂.bank g ∧
        (∀ h : Bits, h.length = s.cfg.H →
          tableGet t.pht h = tableGet s₁.pht (g ++ h) ∧ tableGet t.pht h = tableGet s₂.pht (g ++ h)))

/-- R150.4: PAp is one GAg predictor per address, in the same sense. -/
def Obligations.PApIsOneGAgPerAddress : Prop :=
  ∀ (s t : State) (g addr a' : Bits) (actual : BranchResult),
    s.Good → t.Good → s.cfg.variant = .PAp → t.cfg.variant = .GAg → t.cfg.H = s.cfg.H → t.cfg.S = s.cfg.S →
    g.length = s.cfg.A → addr.length = s.cfg.A → a'.length = t.cfg.A →
    t.bhr = readOr s.cfg.H s.bank g →
    (∀ h : Bits, h.length = s.cfg.H → tableGet t.pht h = tableGet s.pht (g ++ h)) →
    ∃ s₁ s₂, exec (.predictPAp addr) s = .next s₁ ∧ exec (.updatePAp addr actual) s = .next s₂ ∧
      (addr = g →
        ∃ t₁ t₂, exec (.predictGAg a') t = .next t₁ ∧ exec (.updateGAg a' actual) t = .next t₂ ∧
          t₁.resp = s₁.resp ∧ t₁.bhr = readOr s.cfg.H s₁.bank g ∧
          (∀ h : Bits, h.length = s.cfg.H → tableGet t₁.pht h = tableGet s₁.pht (g ++ h)) ∧
          t₂.resp = s₂.resp ∧ t₂.bhr = readOr s.cfg.H s₂.bank g ∧
          (∀ h : Bits, h.length = s.cfg.H → tableGet t₂.pht h = tableGet s₂.pht (g ++ h))) ∧
      (addr ≠ g →
        t.bhr = readOr s.cfg.H s₁.bank g ∧ t.bhr = readOr s.cfg.H s₂.bank g ∧
        (∀ h : Bits, h.length = s.cfg.H →
          tableGet t.pht h = tableGet s₁.pht (g ++ h) ∧ tableGet t.pht h = tableGet s₂.pht (g ++ h)))

/-- R150.5: on operations of one single address every variant behaves as GAg: when a GAg instance `t` holds the history
that `addr` selects in `s` and the entries under the keys of `addr`, both respond alike and the relation is kept. -/
def Obligations.SingleAddressIsGAg : Prop :=
  ∀ (s t : State) (v : Variant) (addr a' : Bits) (i : HistIndex) (actual : BranchResult),
    s.Good → t.Good → s.cfg.variant = v → t.cfg.variant = .GAg → t.cfg.H = s.cfg.H → t.cfg.S = s.cfg.S →
    addr.length = s.cfg.A → a'.length = t.cfg.A → hidx s.cfg addr = some i → t.bhr = histBits s i →
    (∀ h key : Bits, h.length = s.cfg.H → tkey s.cfg addr h = some key → tableGet t.pht h = tableGet s.pht key) →
    ∃ s₁ s₂ t₁ t₂, exec (predictInstr v addr) s = .next s₁ ∧ exec (updateInstr v addr actual) s = .next s₂ ∧
      exec (.predictGAg a') t = .next t₁ ∧ exec (.updateGAg a' actual) t = .next t₂ ∧
      t₁.resp = s₁.resp ∧ t₂.resp = s₂.resp ∧ t₁.bhr = histBits s₁ i ∧ t₂.bhr = histBits s₂ i ∧
      (∀ h key : Bits, h.length = s.cfg.H → tkey s.cfg addr h = some key →
        tableGet t₁.pht h = tableGet s₁.pht key ∧ tableGet t₂.pht h = tableGet s₂.pht key)
end

