-- ==== Sys2Proof/Laws/State.lean ====
section
/-! SUPPORT. What each update of the state does to each field: the field it names takes the new value and every other
field keeps its own. -/

namespace Sys2Proof.Machine

variable (s : State)

@[simp] theorem State.setBhr_cfg (v : Bits) : (s.setBhr v).cfg = s.cfg := rfl
@[simp] theorem State.setBhr_bhr (v : Bits) : (s.setBhr v).bhr = v := rfl
@[simp] theorem State.setBhr_bank (v : Bits) : (s.setBhr v).bank = s.bank := rfl
@[simp] theorem State.setBhr_pht (v : Bits) : (s.setBhr v).pht = s.pht := rfl
@[simp] theorem State.setBhr_sc (v : Bits) : (s.setBhr v).sc = s.sc := rfl
@[simp] theorem State.setBhr_failed (v : Bits) : (s.setBhr v).failed = s.failed := rfl
@[simp] theorem State.setBhr_input (v : Bits) : (s.setBhr v).input = s.input := rfl
@[simp] theorem State.setBhr_resp (v : Bits) : (s.setBhr v).resp = s.resp := rfl

@[simp] theorem State.setBank_cfg (v : Table) : (s.setBank v).cfg = s.cfg := rfl
@[simp] theorem State.setBank_bhr (v : Table) : (s.setBank v).bhr = s.bhr := rfl
@[simp] theorem State.setBank_bank (v : Table) : (s.setBank v).bank = v := rfl
@[simp] theorem State.setBank_pht (v : Table) : (s.setBank v).pht = s.pht := rfl
@[simp] theorem State.setBank_sc (v : Table) : (s.setBank v).sc = s.sc := rfl
@[simp] theorem State.setBank_failed (v : Table) : (s.setBank v).failed = s.failed := rfl
@[simp] theorem State.setBank_input (v : Table) : (s.setBank v).input = s.input := rfl
@[simp] theorem State.setBank_resp (v : Table) : (s.setBank v).resp = s.resp := rfl

@[simp] theorem State.setPht_cfg (v : Table) : (s.setPht v).cfg = s.cfg := rfl
@[simp] theorem State.setPht_bhr (v : Table) : (s.setPht v).bhr = s.bhr := rfl
@[simp] theorem State.setPht_bank (v : Table) : (s.setPht v).bank = s.bank := rfl
@[simp] theorem State.setPht_pht (v : Table) : (s.setPht v).pht = v := rfl
@[simp] theorem State.setPht_sc (v : Table) : (s.setPht v).sc = s.sc := rfl
@[simp] theorem State.setPht_failed (v : Table) : (s.setPht v).failed = s.failed := rfl
@[simp] theorem State.setPht_input (v : Table) : (s.setPht v).input = s.input := rfl
@[simp] theorem State.setPht_resp (v : Table) : (s.setPht v).resp = s.resp := rfl

@[simp] theorem State.setSc_cfg (v : Bits) : (s.setSc v).cfg = s.cfg := rfl
@[simp] theorem State.setSc_bhr (v : Bits) : (s.setSc v).bhr = s.bhr := rfl
@[simp] theorem State.setSc_bank (v : Bits) : (s.setSc v).bank = s.bank := rfl
@[simp] theorem State.setSc_pht (v : Bits) : (s.setSc v).pht = s.pht := rfl
@[simp] theorem State.setSc_sc (v : Bits) : (s.setSc v).sc = v := rfl
@[simp] theorem State.setSc_failed (v : Bits) : (s.setSc v).failed = s.failed := rfl
@[simp] theorem State.setSc_input (v : Bits) : (s.setSc v).input = s.input := rfl
@[simp] theorem State.setSc_resp (v : Bits) : (s.setSc v).resp = s.resp := rfl

@[simp] theorem State.setFailed_cfg (v : Bit) : (s.setFailed v).cfg = s.cfg := rfl
@[simp] theorem State.setFailed_bhr (v : Bit) : (s.setFailed v).bhr = s.bhr := rfl
@[simp] theorem State.setFailed_bank (v : Bit) : (s.setFailed v).bank = s.bank := rfl
@[simp] theorem State.setFailed_pht (v : Bit) : (s.setFailed v).pht = s.pht := rfl
@[simp] theorem State.setFailed_sc (v : Bit) : (s.setFailed v).sc = s.sc := rfl
@[simp] theorem State.setFailed_failed (v : Bit) : (s.setFailed v).failed = v := rfl
@[simp] theorem State.setFailed_input (v : Bit) : (s.setFailed v).input = s.input := rfl
@[simp] theorem State.setFailed_resp (v : Bit) : (s.setFailed v).resp = s.resp := rfl

@[simp] theorem State.setInput_cfg (v : List ClockEdge) : (s.setInput v).cfg = s.cfg := rfl
@[simp] theorem State.setInput_bhr (v : List ClockEdge) : (s.setInput v).bhr = s.bhr := rfl
@[simp] theorem State.setInput_bank (v : List ClockEdge) : (s.setInput v).bank = s.bank := rfl
@[simp] theorem State.setInput_pht (v : List ClockEdge) : (s.setInput v).pht = s.pht := rfl
@[simp] theorem State.setInput_sc (v : List ClockEdge) : (s.setInput v).sc = s.sc := rfl
@[simp] theorem State.setInput_failed (v : List ClockEdge) : (s.setInput v).failed = s.failed := rfl
@[simp] theorem State.setInput_input (v : List ClockEdge) : (s.setInput v).input = v := rfl
@[simp] theorem State.setInput_resp (v : List ClockEdge) : (s.setInput v).resp = s.resp := rfl

@[simp] theorem State.setResp_cfg (v : Response) : (s.setResp v).cfg = s.cfg := rfl
@[simp] theorem State.setResp_bhr (v : Response) : (s.setResp v).bhr = s.bhr := rfl
@[simp] theorem State.setResp_bank (v : Response) : (s.setResp v).bank = s.bank := rfl
@[simp] theorem State.setResp_pht (v : Response) : (s.setResp v).pht = s.pht := rfl
@[simp] theorem State.setResp_sc (v : Response) : (s.setResp v).sc = s.sc := rfl
@[simp] theorem State.setResp_failed (v : Response) : (s.setResp v).failed = s.failed := rfl
@[simp] theorem State.setResp_input (v : Response) : (s.setResp v).input = s.input := rfl
@[simp] theorem State.setResp_resp (v : Response) : (s.setResp v).resp = v := rfl

@[simp] theorem State.fresh_cfg (cfg : Config) : (State.fresh cfg).cfg = cfg := rfl
@[simp] theorem State.fresh_bhr (cfg : Config) : (State.fresh cfg).bhr = zeros (bhrWidth cfg) := rfl
@[simp] theorem State.fresh_bank (cfg : Config) : (State.fresh cfg).bank = [] := rfl
@[simp] theorem State.fresh_pht (cfg : Config) : (State.fresh cfg).pht = [] := rfl
@[simp] theorem State.fresh_sc (cfg : Config) : (State.fresh cfg).sc = zeros cfg.S := rfl
@[simp] theorem State.fresh_failed (cfg : Config) : (State.fresh cfg).failed = false := rfl
@[simp] theorem State.fresh_input (cfg : Config) : (State.fresh cfg).input = [] := rfl
@[simp] theorem State.fresh_resp (cfg : Config) : (State.fresh cfg).resp = Response.none := rfl

end Sys2Proof.Machine
end

