-- ==== Sys2Proof/Laws/Vectors.lean ====
section
/-! SUPPORT. Lengths, values and bounds of the vector functions. -/

namespace Sys2Proof.Machine

@[simp] theorem zeros_length (n : Nat) : (zeros n).length = n := by simp [zeros]

@[simp] theorem vec_length (n m : Nat) : (vec n m).length = n := by
  induction n <;> simp [vec, *]

@[simp] theorem shiftInsert_length (r : Bits) (b : Bit) : (shiftInsert r b).length = r.length := by
  cases r <;> simp [shiftInsert]

@[simp] theorem count_length (c : Bits) (inc : Bool) : (count c inc).length = c.length := by
  simp [count]

@[simp] theorem clearReg_length (r : Bits) : (clearReg r).length = r.length := by simp [clearReg]

@[simp] theorem val_zeros (n : Nat) : val (zeros n) = 0 := by
  induction n with
  | zero => rfl
  | succ n ih => simpa [zeros, List.replicate_succ, val] using ih

theorem val_lt (v : Bits) : val v < 2 ^ v.length := by
  induction v with
  | nil => simp [val]
  | cons b rest ih => cases b <;> simp [val, Nat.pow_succ] <;> omega

theorem val_append (x y : Bits) : val (x ++ y) = val x * 2 ^ y.length + val y := by
  induction x with
  | nil => simp [val]
  | cons b rest ih =>
    simp only [List.cons_append, val, List.length_append, ih, Nat.pow_add]
    ring

/-- A vector is determined by its length and its value. -/
theorem val_injective {x y : Bits} (hl : x.length = y.length) (hv : val x = val y) : x = y := by
  induction x generalizing y with
  | nil => cases y <;> simp_all
  | cons a x ih =>
    cases y with
    | nil => simp at hl
    | cons b y =>
      have hl' : x.length = y.length := by simpa using hl
      have hx := val_lt x
      have hy := val_lt y
      simp only [val, hl'] at hv hx
      have hab : a = b := by cases a <;> cases b <;> simp at hv <;> first | rfl | omega
      subst hab
      rw [ih hl' (by omega)]

theorem val_vec {n m : Nat} (h : m < 2 ^ n) : val (vec n m) = m := by
  suffices ∀ m, val (vec n m) = m % 2 ^ n by rw [this, Nat.mod_eq_of_lt h]
  clear h m
  intro m
  induction n with
  | zero => simp [vec, val, Nat.mod_one]
  | succ n ih =>
    have hsplit : m % 2 ^ (n + 1) = m / 2 ^ n % 2 * 2 ^ n + m % 2 ^ n := by
      rw [Nat.pow_succ, Nat.mod_mul]; ring
    have hb : (decide (m / 2 ^ n % 2 = 1)).toNat = m / 2 ^ n % 2 := by
      rcases Nat.mod_two_eq_zero_or_one (m / 2 ^ n) with h | h <;> simp [h]
    rw [vec, val, hb, vec_length, ih, hsplit]

theorem vec_val (v : Bits) : vec v.length (val v) = v :=
  val_injective (by simp) (val_vec (val_lt v))

/-- R100: the exact value of a counter step. -/
theorem val_count (c : Bits) (inc : Bool) :
    val (count c inc) = if inc then min (val c + 1) (2 ^ c.length - 1) else val c - 1 := by
  have h := val_lt c
  unfold count
  split <;> exact val_vec (by omega)

theorem hashFold_eq_some {x y : Bits} {K : Nat} :
    hashFold x K = some y ↔ (1 ≤ K ∧ K ≤ x.length) ∧ (List.range K).map (fun j => bucket K j 0 x) = y := by
  unfold hashFold
  split <;> simp_all

theorem hashFold_length {x y : Bits} {K : Nat} (h : hashFold x K = some y) : y.length = K := by
  obtain ⟨-, rfl⟩ := hashFold_eq_some.1 h
  simp

theorem hashFold_in_domain {x : Bits} {K : Nat} (h1 : 1 ≤ K) (h2 : K ≤ x.length) :
    ∃ y, hashFold x K = some y ∧ y.length = K :=
  ⟨_, hashFold_eq_some.2 ⟨⟨h1, h2⟩, rfl⟩, by simp⟩

@[simp] theorem resultOf_bitOf (r : BranchResult) : resultOf (bitOf r) = r := by cases r <;> rfl

@[simp] theorem bitOf_resultOf (b : Bit) : bitOf (resultOf b) = b := by cases b <;> rfl

end Sys2Proof.Machine
end

