-- ==== Sys2Proof/Laws/Tables.lean ====
section
/-! SUPPORT. Reads after writes of a table, and that every table operation keeps the canonical form and the widths of
the entries. -/

namespace Sys2Proof.Machine

theorem keyLt_irrefl (x : Bits) : keyLt x x = false := by
  induction x with
  | nil => rfl
  | cons a x ih => simp [keyLt, ih]

theorem keyLt_trans {x y z : Bits} (h1 : keyLt x y = true) (h2 : keyLt y z = true) : keyLt x z = true := by
  induction x generalizing y z with
  | nil =>
    cases y <;> cases z <;> simp_all [keyLt]
  | cons a x ih =>
    cases y with
    | nil => simp [keyLt] at h1
    | cons b y =>
      cases z with
      | nil => simp [keyLt] at h2
      | cons c z =>
        simp only [keyLt] at h1 h2 ⊢
        by_cases hab : a = b
        · subst hab
          by_cases hac : a = c
          · subst hac; simp only [if_true] at h1 h2 ⊢; exact ih h1 h2
          · simpa [hac] using h2
        · by_cases hbc : b = c
          · subst hbc; simpa [hab] using h1
          · cases a <;> cases b <;> cases c <;> simp_all

/-- Two different keys are ordered one way or the other. -/
theorem keyLt_total {x y : Bits} (hne : x ≠ y) (h : keyLt x y = false) : keyLt y x = true := by
  induction x generalizing y with
  | nil => cases y <;> simp_all [keyLt]
  | cons a x ih =>
    cases y with
    | nil => rfl
    | cons b y =>
      simp only [keyLt] at h ⊢
      by_cases hab : a = b
      · subst hab
        simp only [if_true] at h ⊢
        exact ih (by simpa using hne) h
      · cases a <;> cases b <;> simp_all

theorem tableGet_eq_some_mem {t : Table} {k v : Bits} (h : tableGet t k = some v) : (k, v) ∈ t := by
  induction t with
  | nil => simp [tableGet] at h
  | cons e t ih =>
    obtain ⟨k', v'⟩ := e
    simp only [tableGet] at h
    split at h
    · simp_all
    · exact List.mem_cons_of_mem _ (ih h)

/-- In a canonical table every entry listed is the one that its key reads. -/
theorem tableGet_of_mem {t : Table} {k v : Bits} (hw : Memory.wf t) (h : (k, v) ∈ t) : tableGet t k = some v := by
  induction t with
  | nil => simp at h
  | cons e t ih =>
    obtain ⟨k', v'⟩ := e
    obtain ⟨hlt, hw'⟩ := List.pairwise_cons.1 hw
    rcases List.mem_cons.1 h with h | h
    · cases h; simp [tableGet]
    · have hk := hlt _ h
      have hne : k ≠ k' := by rintro rfl; simp [keyLt_irrefl] at hk
      simp [tableGet, hne, ih hw' h]

theorem tableGet_put_same (t : Table) (k v : Bits) : tableGet (tablePut t k v) k = some v := by
  induction t with
  | nil => simp [tablePut, tableGet]
  | cons e t ih =>
    obtain ⟨k', v'⟩ := e
    simp only [tablePut]
    split
    · simp [tableGet]
    · split
      · simp [tableGet]
      · simp [tableGet, *]

theorem tableGet_put_other (t : Table) {k k' : Bits} (v : Bits) (h : k' ≠ k) :
    tableGet (tablePut t k v) k' = tableGet t k' := by
  induction t with
  | nil => simp [tablePut, tableGet, h]
  | cons e t ih =>
    obtain ⟨k₀, v₀⟩ := e
    simp only [tablePut]
    split
    · subst_vars; simp [tableGet, h]
    · split
      · simp [tableGet, h]
      · simp only [tableGet, ih]

theorem tableGet_put (t : Table) (k k' v : Bits) :
    tableGet (tablePut t k v) k' = if k' = k then some v else tableGet t k' := by
  split
  · subst_vars; exact tableGet_put_same ..
  · exact tableGet_put_other _ _ ‹_›

theorem mem_tablePut {t : Table} {k v : Bits} {e : Bits × Bits} (h : e ∈ tablePut t k v) : e = (k, v) ∨ e ∈ t := by
  induction t with
  | nil => simp [tablePut] at h; exact .inl h
  | cons e' t ih =>
    obtain ⟨k', v'⟩ := e'
    simp only [tablePut] at h
    split at h
    · rcases List.mem_cons.1 h with h | h
      · exact .inl h
      · exact .inr (List.mem_cons_of_mem _ h)
    · split at h
      · rcases List.mem_cons.1 h with h | h
        · exact .inl h
        · exact .inr h
      · rcases List.mem_cons.1 h with h | h
        · exact .inr (by simp [h])
        · rcases ih h with h | h
          · exact .inl h
          · exact .inr (List.mem_cons_of_mem _ h)

theorem tablePut_keeps_wf {t : Table} (k v : Bits) (hw : Memory.wf t) : Memory.wf (tablePut t k v) := by
  induction t with
  | nil => simp [tablePut]
  | cons e t ih =>
    obtain ⟨k', v'⟩ := e
    obtain ⟨hlt, hw'⟩ := List.pairwise_cons.1 hw
    simp only [tablePut]
    split
    · subst_vars; exact List.pairwise_cons.2 ⟨hlt, hw'⟩
    · split
      · rename_i hlt'
        refine List.pairwise_cons.2 ⟨fun e he => ?_, hw⟩
        rcases List.mem_cons.1 he with rfl | he
        · exact hlt'
        · exact keyLt_trans hlt' (hlt e he)
      · rename_i hne hnlt
        refine List.pairwise_cons.2 ⟨fun e he => ?_, ih hw'⟩
        rcases mem_tablePut he with rfl | he
        · exact keyLt_total hne (by simpa using hnlt)
        · exact hlt e he

theorem tablePutIfAbsent_keeps_wf {t : Table} (k d : Bits) (hw : Memory.wf t) :
    Memory.wf (tablePutIfAbsent t k d) := by
  unfold tablePutIfAbsent
  split
  · exact tablePut_keeps_wf _ _ hw
  · exact hw

theorem mem_tablePutIfAbsent {t : Table} {k d : Bits} {e : Bits × Bits} (h : e ∈ tablePutIfAbsent t k d) :
    e = (k, d) ∨ e ∈ t := by
  unfold tablePutIfAbsent at h
  split at h
  · exact mem_tablePut h
  · exact .inr h

/-- R88: an absent key takes the value, and nothing else changes. -/
theorem tableGet_putIfAbsent (t : Table) (k k' d : Bits) :
    tableGet (tablePutIfAbsent t k d) k' = if k' = k then some ((tableGet t k).getD d) else tableGet t k' := by
  unfold tablePutIfAbsent
  split
  · rename_i h; rw [tableGet_put, h]; rfl
  · rename_i v h
    split
    · subst_vars; simp [h]
    · rfl

theorem tablePutIfAbsent_of_present {t : Table} {k v : Bits} (d : Bits) (h : tableGet t k = some v) :
    tablePutIfAbsent t k d = t := by simp [tablePutIfAbsent, h]

/-- A second write to a key replaces the first. -/
theorem tablePut_put (t : Table) (k v v' : Bits) : tablePut (tablePut t k v) k v' = tablePut t k v' := by
  induction t with
  | nil => simp [tablePut]
  | cons e t ih =>
    obtain ⟨k₀, v₀⟩ := e
    simp only [tablePut]
    split
    · simp [tablePut]
    · split
      · simp [tablePut]
      · simp [tablePut, *]

theorem tablePut_putIfAbsent (t : Table) (k d v : Bits) :
    tablePut (tablePutIfAbsent t k d) k v = tablePut t k v := by
  unfold tablePutIfAbsent
  split
  · exact tablePut_put ..
  · rfl

/-- R162: adding the default where a key is absent changes no read that supplies the default. -/
theorem readOr_putIfAbsent (w : Nat) (t : Table) (k k' : Bits) :
    readOr w (tablePutIfAbsent t k (zeros w)) k' = readOr w t k' := by
  unfold readOr
  rw [tableGet_putIfAbsent]
  split
  · subst_vars; rfl
  · rfl

theorem readOr_put (w : Nat) (t : Table) (k k' v : Bits) :
    readOr w (tablePut t k v) k' = if k' = k then v else readOr w t k' := by
  unfold readOr
  rw [tableGet_put]
  split <;> rfl

/-- A read that supplies the default has the width of the entries. -/
theorem readOr_length {w : Nat} {t : Table} (hw : ∀ e ∈ t, e.2.length = w) (k : Bits) :
    (readOr w t k).length = w := by
  unfold readOr
  cases h : tableGet t k with
  | none => simp
  | some v => exact hw _ (tableGet_eq_some_mem h)

end Sys2Proof.Machine
end

