-- ==== Sys2Proof/Laws/Ops.lean ====
section
/-! SUPPORT. What each shared operation can do: when it answers, and with which state. -/

namespace Sys2Proof.Machine

/-- An action followed by another answers exactly when both do. -/
theorem bind_eq_ok {α β : Type} {x : Except Stop α} {f : α → Except Stop β} {b : β} :
    x >>= f = .ok b ↔ ∃ a, x = .ok a ∧ f a = .ok b := by
  cases x <;> simp [bind, Except.bind]

theorem finish_eq_next {s t : State} {r : Except Stop (State × Response)} :
    finish s r = .next t ↔
      (∃ s' x, r = .ok (s', x) ∧ t = s'.setResp x) ∨ (∃ c, r = .error (.violation c) ∧ t = raise c s) := by
  rcases r with (c | r) | ⟨s', x⟩ <;> simp [finish, eq_comm]

theorem onVariant_eq_next {v : Variant} {s t : State} {op : State → Except Stop (State × Response)} :
    onVariant v s op = .next t ↔ legal s.cfg = true ∧ s.cfg.variant = v ∧ finish s (op s) = .next t := by
  unfold onVariant
  by_cases hl : legal s.cfg = true <;> by_cases hv : s.cfg.variant = v <;> simp [hl, hv]

/-- On an instance of its variant an operation runs. -/
theorem onVariant_run {v : Variant} {s : State} {op : State → Except Stop (State × Response)}
    (hl : legal s.cfg = true) (hv : s.cfg.variant = v) : onVariant v s op = finish s (op s) := by
  simp [onVariant, hl, hv]

theorem demand_eq_ok {α : Type} {o : Option α} {a : α} : demand o = .ok a ↔ o = some a := by
  cases o <;> simp [demand]

theorem checkUsable_eq_ok {s : State} {u : Unit} : checkUsable s = .ok u ↔ s.failed = false := by
  unfold checkUsable
  cases s.failed <;> simp

theorem checkAddr_eq_ok {addr : Bits} {s : State} {u : Unit} :
    checkAddr addr s = .ok u ↔ addr.length = s.cfg.A := by
  unfold checkAddr
  split <;> simp_all

theorem loadReg_eq_ok {len : Nat} {v w : Bits} : loadReg len v = .ok w ↔ v.length = len ∧ w = v := by
  unfold loadReg
  split <;> simp_all [eq_comm]

theorem bankRead_eq_ok {i h : Bits} {s s' : State} :
    bankRead i s = .ok (h, s') ↔
      indexWidth s.cfg = some i.length ∧ h = histBits s (.entry i) ∧ s' = touchHist s (.entry i) := by
  unfold bankRead
  split <;> simp_all [histBits, touchHist, eq_comm]

theorem bankWrite_eq_ok {i v : Bits} {s s' : State} :
    bankWrite i v s = .ok s' ↔
      (indexWidth s.cfg = some i.length ∧ v.length = s.cfg.H) ∧ s' = s.setBank (tablePut s.bank i v) := by
  unfold bankWrite
  split <;> simp_all [eq_comm]

theorem phtGet_eq_ok {k : Bits} {o : Option Bits} {s : State} :
    phtGet k s = .ok o ↔ k.length = keyWidth s.cfg ∧ o = tableGet s.pht k := by
  unfold phtGet
  split <;> simp_all [eq_comm]

theorem phtPut_eq_ok {k v : Bits} {s s' : State} :
    phtPut k v s = .ok s' ↔
      (k.length = keyWidth s.cfg ∧ v.length = s.cfg.S) ∧ s' = s.setPht (tablePut s.pht k v) := by
  unfold phtPut
  split <;> simp_all [eq_comm]

theorem phtPutIfAbsent_eq_ok {k d : Bits} {s s' : State} :
    phtPutIfAbsent k d s = .ok s' ↔
      (k.length = keyWidth s.cfg ∧ d.length = s.cfg.S) ∧ s' = s.setPht (tablePutIfAbsent s.pht k d) := by
  unfold phtPutIfAbsent
  split <;> simp_all [eq_comm]

theorem phtGetOrZero_eq_ok {k c : Bits} {s : State} :
    phtGetOrZero k s = .ok c ↔ k.length = keyWidth s.cfg ∧ c = readOr s.cfg.S s.pht k := by
  unfold phtGetOrZero phtGet
  split <;> simp_all [bind, Except.bind, pure, Except.pure, readOr, eq_comm]

/-- R89: the composite of PREDICT's steps 3 and 4 answers the block at the key, and the key is present after it. -/
theorem phtGetOrInsertDefault_eq_ok {k c : Bits} {s s' : State} :
    phtGetOrInsertDefault k s = .ok (c, s') ↔
      k.length = keyWidth s.cfg ∧ c = readOr s.cfg.S s.pht k ∧
        s' = s.setPht (tablePutIfAbsent s.pht k (zeros s.cfg.S)) := by
  unfold phtGetOrInsertDefault phtPutIfAbsent phtGetOrZero phtGet
  by_cases hk : k.length = keyWidth s.cfg
  · have h := readOr_putIfAbsent s.cfg.S s.pht k k
    unfold readOr at h
    simp [hk, bind, Except.bind, pure, Except.pure, readOr, h, eq_comm]
  · simp [hk, bind, Except.bind]

theorem histRead_eq_ok {i : HistIndex} {h : Bits} {s s' : State} :
    histRead i s = .ok (h, s') ↔
      (∀ j, i = .entry j → indexWidth s.cfg = some j.length) ∧ h = histBits s i ∧ s' = touchHist s i := by
  cases i with
  | global => simp [histRead, readReg, histBits, touchHist, eq_comm]
  | entry j => simp [histRead, bankRead_eq_ok]

theorem histWrite_eq_ok {i : HistIndex} {v : Bits} {s s' : State} :
    histWrite i v s = .ok s' ↔
      (i = .global ∧ s' = s.setBhr v) ∨
        ∃ j, i = .entry j ∧ (indexWidth s.cfg = some j.length ∧ v.length = s.cfg.H) ∧
          s' = s.setBank (tablePut s.bank j v) := by
  cases i with
  | global => simp [histWrite, eq_comm]
  | entry j => simp [histWrite, bankWrite_eq_ok]

@[simp] theorem touchHist_cfg (s : State) (i : HistIndex) : (touchHist s i).cfg = s.cfg := by cases i <;> rfl
@[simp] theorem touchHist_bhr (s : State) (i : HistIndex) : (touchHist s i).bhr = s.bhr := by cases i <;> rfl
@[simp] theorem touchHist_pht (s : State) (i : HistIndex) : (touchHist s i).pht = s.pht := by cases i <;> rfl
@[simp] theorem touchHist_sc (s : State) (i : HistIndex) : (touchHist s i).sc = s.sc := by cases i <;> rfl
@[simp] theorem touchHist_failed (s : State) (i : HistIndex) : (touchHist s i).failed = s.failed := by
  cases i <;> rfl
@[simp] theorem touchHist_input (s : State) (i : HistIndex) : (touchHist s i).input = s.input := by cases i <;> rfl
@[simp] theorem touchHist_resp (s : State) (i : HistIndex) : (touchHist s i).resp = s.resp := by cases i <;> rfl

/-- Reading a register of the bank changes no register's bits. -/
@[simp] theorem histBits_touchHist (s : State) (i j : HistIndex) : histBits (touchHist s i) j = histBits s j := by
  cases i <;> cases j <;> simp [histBits, touchHist, readOr_putIfAbsent]

theorem legal_iff {cfg : Config} :
    legal cfg = true ↔ (1 ≤ cfg.H ∧ 1 ≤ cfg.S ∧ 1 ≤ cfg.A) ∧
      (if hashes cfg.variant then 1 ≤ cfg.K ∧ cfg.K ≤ cfg.A else cfg.K = 0) := by
  unfold legal
  split <;> simp_all [and_assoc]

/-- R121: an admitted instance has an index for every address of its width, and it has the bank's index width. -/
theorem hidx_exists {cfg : Config} {addr : Bits} (hl : legal cfg = true) (ha : addr.length = cfg.A) :
    ∃ i, hidx cfg addr = some i ∧ (∀ j, i = .entry j → indexWidth cfg = some j.length) ∧
      (i = .global ↔ cfg.variant = .GAg) := by
  obtain ⟨-, hk⟩ := legal_iff.1 hl
  cases hv : cfg.variant <;> simp only [hidx, hv, indexWidth, Option.map_eq_some_iff]
  case GAg => exact ⟨_, rfl, by simp, by simp⟩
  case PAp => exact ⟨_, rfl, by simp [ha], by simp⟩
  case PAs => exact ⟨_, rfl, by simp [ha], by simp⟩
  all_goals
    simp only [hv, hashes, if_true] at hk
    obtain ⟨g, hg, hlen⟩ := hashFold_in_domain (x := addr) hk.1 (ha ▸ hk.2)
    exact ⟨_, ⟨g, hg, rfl⟩, by simp [hlen], by simp⟩

/-- R122: an admitted instance has a key for every address of its width, of the table's key width. -/
theorem tkey_exists {cfg : Config} {addr h : Bits} (hl : legal cfg = true) (ha : addr.length = cfg.A)
    (hh : h.length = cfg.H) : ∃ k, tkey cfg addr h = some k ∧ k.length = keyWidth cfg := by
  obtain ⟨-, hk⟩ := legal_iff.1 hl
  cases hv : cfg.variant <;> simp only [tkey, hv, keyWidth, Option.map_eq_some_iff]
  case GAg => exact ⟨_, rfl, hh⟩
  case PAp => exact ⟨_, rfl, by simp [ha, hh]⟩
  case SAp => exact ⟨_, rfl, by simp [ha, hh]⟩
  all_goals
    simp only [hv, hashes, if_true] at hk
    obtain ⟨g, hg, hlen⟩ := hashFold_in_domain (x := addr) hk.1 (ha ▸ hk.2)
    exact ⟨_, ⟨g, hg, rfl⟩, by simp [hlen, hh]⟩

/-- R18.1: the history bits of an index have `H` bits. -/
theorem histBits_length {s : State} (hw : s.Wf) {i : HistIndex} (hi : i = .global → s.cfg.variant = .GAg) :
    (histBits s i).length = s.cfg.H := by
  obtain ⟨-, hb, ⟨-, hbank⟩, -⟩ := hw
  cases i with
  | global => simp [histBits, hb, bhrWidth, hi rfl]
  | entry j => exact readOr_length (fun e he => (hbank e he).2) j

end Sys2Proof.Machine
end

