-- ==== Sys2Proof/Laws/Engine.lean ====
section
/-! SUPPORT. What PREDICT and UPDATE of the engine can do: the states they answer, the violations they raise, and that
on a well-formed state they answer. -/

namespace Sys2Proof.Machine

/-- R124: the state PREDICT leaves, from the index and key it selects. -/
def predicted (s : State) (i : HistIndex) (key : Bits) : State :=
  ((touchHist s i).setPht (tablePutIfAbsent s.pht key (zeros s.cfg.S))).setSc (readOr s.cfg.S s.pht key)

/-- R125: the state UPDATE leaves, from the index and key it selects. -/
def updated (s : State) (i : HistIndex) (key : Bits) (actual : BranchResult) : State :=
  let s' := s.setPht (tablePut s.pht key (count (readOr s.cfg.S s.pht key) (decide (actual = .taken))))
  match i with
  | .global => s'.setBhr (shiftInsert s.bhr (bitOf actual))
  | .entry j => s'.setBank (tablePut s.bank j (shiftInsert (readOr s.cfg.H s.bank j) (bitOf actual)))

/-- What an operation of address `addr` selects in a usable state. -/
structure Selects (s : State) (addr : Bits) (i : HistIndex) (key : Bits) : Prop where
  usable : s.failed = false
  fits : addr.length = s.cfg.A
  index : hidx s.cfg addr = some i
  indexFits : ∀ j, i = .entry j → indexWidth s.cfg = some j.length
  keyed : tkey s.cfg addr (histBits s i) = some key
  keyFits : key.length = keyWidth s.cfg

/-- R124: everything PREDICT can answer. -/
theorem predict_eq_ok {s s' : State} {addr : Bits} {r : Response} :
    predict addr s = .ok (s', r) ↔
      ∃ i key, Selects s addr i key ∧ (readOr s.cfg.S s.pht key).length = s.cfg.S ∧
        s' = predicted s i key ∧ r = .prediction (predictionOf (readOr s.cfg.S s.pht key)) := by
  simp only [predict, bind_eq_ok, checkUsable_eq_ok, checkAddr_eq_ok, demand_eq_ok, Prod.exists, histRead_eq_ok,
    phtGetOrInsertDefault_eq_ok, loadReg_eq_ok, pure, Except.pure]
  constructor
  · rintro ⟨-, hf, -, ha, i, hi, h, s₁, ⟨hix, rfl, rfl⟩, key, hk, c, s₂, ⟨hkl, rfl, rfl⟩, sc, ⟨hl, rfl⟩, he⟩
    simp only [touchHist_cfg, touchHist_pht, State.setPht_cfg, Except.ok.injEq, Prod.mk.injEq] at hk hkl hl he
    exact ⟨i, key, ⟨hf, ha, hi, hix, hk, hkl⟩, hl, he.1.symm, he.2.symm⟩
  · rintro ⟨i, key, ⟨hf, ha, hi, hix, hk, hkl⟩, hl, rfl, rfl⟩
    exact ⟨(), hf, (), ha, i, hi, _, _, ⟨hix, rfl, rfl⟩, key, by simpa using hk, _, _,
      ⟨by simpa using hkl, rfl, rfl⟩, _, ⟨by simpa using hl, rfl⟩, by simp [predicted]⟩

/-- R125: everything UPDATE can answer. -/
theorem update_eq_ok {s s' : State} {addr : Bits} {actual : BranchResult} {r : Response} :
    update addr actual s = .ok (s', r) ↔
      ∃ i key, Selects s addr i key ∧ (readOr s.cfg.S s.pht key).length = s.cfg.S ∧
        (∀ j, i = .entry j → (histBits s i).length = s.cfg.H) ∧
        s' = updated s i key actual ∧ r = .none := by
  simp only [update, bind_eq_ok, checkUsable_eq_ok, checkAddr_eq_ok, demand_eq_ok, Prod.exists, histRead_eq_ok,
    phtGetOrZero_eq_ok, phtPut_eq_ok, histWrite_eq_ok, pure, Except.pure]
  constructor
  · rintro ⟨-, hf, -, ha, i, hi, h, s₁, ⟨hix, rfl, rfl⟩, key, hk, c, ⟨hkl, rfl⟩, s₂, ⟨⟨-, hcl⟩, rfl⟩, s₃, hw, he⟩
    simp only [touchHist_cfg, touchHist_pht, Except.ok.injEq, Prod.mk.injEq, count_length]
      at hk hkl hcl he
    obtain ⟨rfl, rfl⟩ := he
    refine ⟨i, key, ⟨hf, ha, hi, hix, hk, hkl⟩, hcl, ?_, ?_, rfl⟩
    · rintro j rfl
      rcases hw with ⟨h, -⟩ | ⟨j', -, ⟨-, hl⟩, -⟩
      · cases h
      · simpa using hl
    · rcases hw with ⟨rfl, rfl⟩ | ⟨j, rfl, -, rfl⟩
      · simp [updated, touchHist, histBits]
      · simp [updated, touchHist, histBits, State.setBank, State.setPht, tablePut_putIfAbsent]
  · rintro ⟨i, key, ⟨hf, ha, hi, hix, hk, hkl⟩, hcl, hh, rfl, rfl⟩
    refine ⟨(), hf, (), ha, i, hi, _, _, ⟨hix, rfl, rfl⟩, key, by simpa using hk, _, ⟨by simpa using hkl, rfl⟩, _,
      ⟨⟨by simpa using hkl, by simpa using hcl⟩, rfl⟩, _, ?_, rfl⟩
    cases i with
    | global => exact .inl ⟨rfl, by simp [updated, touchHist, histBits]⟩
    | entry j =>
      exact .inr ⟨j, rfl, ⟨by simpa using hix j rfl, by simpa using hh j rfl⟩,
        by simp [updated, touchHist, histBits, State.setBank, State.setPht, tablePut_putIfAbsent]⟩

/-- A usable, well-formed state selects an index and a key for every address of its width. -/
theorem selects_exists {s : State} {addr : Bits} (hw : s.Wf) (hf : s.failed = false)
    (ha : addr.length = s.cfg.A) :
    ∃ i key, Selects s addr i key ∧ (i = .global ↔ s.cfg.variant = .GAg) ∧
      (readOr s.cfg.S s.pht key).length = s.cfg.S ∧ (histBits s i).length = s.cfg.H := by
  obtain ⟨i, hi, hix, hg⟩ := hidx_exists hw.1 ha
  have hh := histBits_length hw hg.1
  obtain ⟨key, hk, hkl⟩ := tkey_exists hw.1 ha hh
  exact ⟨i, key, ⟨hf, ha, hi, hix, hk, hkl⟩, hg, readOr_length (fun e he => (hw.2.2.2.1.2 e he).2) key, hh⟩

/-- R124: on a usable, well-formed state PREDICT answers, with the entry it selects. -/
theorem predict_answers {s : State} {addr : Bits} {i : HistIndex} {key : Bits} (hw : s.Wf)
    (hs : Selects s addr i key) :
    predict addr s = .ok (predicted s i key, .prediction (predictionOf (readOr s.cfg.S s.pht key))) :=
  predict_eq_ok.2 ⟨i, key, hs, readOr_length (fun e he => (hw.2.2.2.1.2 e he).2) key, rfl, rfl⟩

/-- R125: on a usable, well-formed state UPDATE answers, with the entries it selects. -/
theorem update_answers {s : State} {addr : Bits} {i : HistIndex} {key : Bits} (actual : BranchResult) (hw : s.Wf)
    (hs : Selects s addr i key) : update addr actual s = .ok (updated s i key actual, .none) :=
  update_eq_ok.2 ⟨i, key, hs, readOr_length (fun e he => (hw.2.2.2.1.2 e he).2) key,
    fun j hj => by subst hj; exact readOr_length (fun e he => (hw.2.2.1.2 e he).2) j, rfl, rfl⟩

/-- R165, R166: the first check comes first. -/
theorem predict_failed {s : State} (addr : Bits) (h : s.failed = true) :
    predict addr s = .error (.violation .failedEarlier) := by
  simp [predict, checkUsable, h, bind, Except.bind]

theorem update_failed {s : State} (addr : Bits) (actual : BranchResult) (h : s.failed = true) :
    update addr actual s = .error (.violation .failedEarlier) := by
  simp [update, checkUsable, h, bind, Except.bind]

/-- R123, R161: the width check comes before any read. -/
theorem predict_wrong_width {s : State} {addr : Bits} (h : s.failed = false) (ha : addr.length ≠ s.cfg.A) :
    predict addr s = .error (.violation .addrWidth) := by
  simp [predict, checkUsable, checkAddr, h, ha, bind, Except.bind]

theorem update_wrong_width {s : State} {addr : Bits} (actual : BranchResult) (h : s.failed = false)
    (ha : addr.length ≠ s.cfg.A) : update addr actual s = .error (.violation .addrWidth) := by
  simp [update, checkUsable, checkAddr, h, ha, bind, Except.bind]

section Fields

variable (s : State) (i : HistIndex) (key : Bits) (actual : BranchResult)

@[simp] theorem predicted_cfg : (predicted s i key).cfg = s.cfg := touchHist_cfg s i
@[simp] theorem predicted_bhr : (predicted s i key).bhr = s.bhr := touchHist_bhr s i
@[simp] theorem predicted_bank : (predicted s i key).bank = (touchHist s i).bank := rfl
@[simp] theorem predicted_pht : (predicted s i key).pht = tablePutIfAbsent s.pht key (zeros s.cfg.S) := rfl
@[simp] theorem predicted_sc : (predicted s i key).sc = readOr s.cfg.S s.pht key := rfl
@[simp] theorem predicted_failed : (predicted s i key).failed = s.failed := touchHist_failed s i
@[simp] theorem predicted_input : (predicted s i key).input = s.input := touchHist_input s i

@[simp] theorem updated_cfg : (updated s i key actual).cfg = s.cfg := by cases i <;> rfl
@[simp] theorem updated_pht : (updated s i key actual).pht =
    tablePut s.pht key (count (readOr s.cfg.S s.pht key) (decide (actual = .taken))) := by cases i <;> rfl
@[simp] theorem updated_sc : (updated s i key actual).sc = s.sc := by cases i <;> rfl
@[simp] theorem updated_failed : (updated s i key actual).failed = s.failed := by cases i <;> rfl
@[simp] theorem updated_input : (updated s i key actual).input = s.input := by cases i <;> rfl

end Fields

/-- R128: PREDICT changes no history register's bits. -/
theorem histBits_predicted (s : State) (i j : HistIndex) (key : Bits) :
    histBits (predicted s i key) j = histBits s j := by
  have h := histBits_touchHist s i j
  cases j with
  | global => simp [histBits]
  | entry => simpa [histBits] using h

/-- R125: UPDATE shifts the outcome into the register it selects and no other. -/
theorem histBits_updated (s : State) (i j : HistIndex) (key : Bits) (actual : BranchResult) :
    histBits (updated s i key actual) j =
      if j = i then shiftInsert (histBits s i) (bitOf actual) else histBits s j := by
  cases i <;> cases j <;> simp [histBits, updated, readOr_put]

/-- What an operation selects is determined by its index and key. -/
theorem Selects.of_index {s : State} {addr : Bits} {i : HistIndex} {key : Bits} (hs : s.Good)
    (ha : addr.length = s.cfg.A) (hi : hidx s.cfg addr = some i)
    (hk : tkey s.cfg addr (histBits s i) = some key) : Selects s addr i key := by
  obtain ⟨i', key', h, -⟩ := selects_exists hs.1 hs.2 ha
  obtain rfl : i = i' := by simpa [hi] using h.index
  obtain rfl : key = key' := by simpa [hk] using h.keyed
  exact h

/-- The reads of the history keep the invariant. -/
theorem touchHist_wf {s : State} {i : HistIndex} (h : s.Wf)
    (hi : ∀ j, i = .entry j → indexWidth s.cfg = some j.length) : (touchHist s i).Wf := by
  cases i with
  | global => exact h
  | entry j =>
    obtain ⟨hl, hb, ⟨hm, hw⟩, hrest⟩ := h
    refine ⟨hl, hb, ⟨tablePutIfAbsent_keeps_wf _ _ hm, fun e he => ?_⟩, hrest⟩
    rcases mem_tablePutIfAbsent he with rfl | he
    · exact ⟨hi _ rfl, by simp⟩
    · exact hw e he

end Sys2Proof.Machine
end

