-- ==== Sys2Proof/Laws/PerInstr.lean ====
section
/-! SUPPORT. Statements about every operation as syntax, one lemma per constructor. -/

namespace Sys2Proof.Laws.EncodeWidth

/-- R53, R61: the command word of an operation of an instance has `A + 3` bits. -/
def Statement (i : Instr) : Prop := ∀ cfg : Config, i.wf cfg = true → (encode cfg i).length = cfg.A + 3

theorem width_of_addr {cfg : Config} {v : Variant} {addr : Bits}
    (h : (ofVariant cfg v && addrFits cfg addr) = true) : addr.length = cfg.A := by
  simp only [addrFits, Bool.and_eq_true, decide_eq_true_eq] at h
  exact h.2

theorem width_predict {cfg : Config} {addr : Bits} (h : addr.length = cfg.A) :
    (encodePredict addr).length = cfg.A + 3 := by simp [encodePredict, cmdWord, h]

theorem width_update {cfg : Config} {addr : Bits} (actual : BranchResult) (h : addr.length = cfg.A) :
    (encodeUpdate addr actual).length = cfg.A + 3 := by simp [encodeUpdate, cmdWord, h]

theorem width_monitor (cfg : Config) : (encodeMonitor cfg).length = cfg.A + 3 := by
  simp [encodeMonitor, cmdWord]

theorem nop : Statement .nop := fun cfg _ => by simp [encode, cmdWord]
theorem predictGAg (addr : Bits) : Statement (.predictGAg addr) := fun _ h => width_predict (width_of_addr h)
theorem updateGAg (addr : Bits) (actual : BranchResult) : Statement (.updateGAg addr actual) :=
  fun _ h => width_update actual (width_of_addr h)
theorem monitorGAg : Statement .monitorGAg := fun cfg _ => width_monitor cfg
theorem predictPAp (addr : Bits) : Statement (.predictPAp addr) := fun _ h => width_predict (width_of_addr h)
theorem updatePAp (addr : Bits) (actual : BranchResult) : Statement (.updatePAp addr actual) :=
  fun _ h => width_update actual (width_of_addr h)
theorem monitorPAp : Statement .monitorPAp := fun cfg _ => width_monitor cfg
theorem predictPAs (addr : Bits) : Statement (.predictPAs addr) := fun _ h => width_predict (width_of_addr h)
theorem updatePAs (addr : Bits) (actual : BranchResult) : Statement (.updatePAs addr actual) :=
  fun _ h => width_update actual (width_of_addr h)
theorem monitorPAs : Statement .monitorPAs := fun cfg _ => width_monitor cfg
theorem predictSAp (addr : Bits) : Statement (.predictSAp addr) := fun _ h => width_predict (width_of_addr h)
theorem updateSAp (addr : Bits) (actual : BranchResult) : Statement (.updateSAp addr actual) :=
  fun _ h => width_update actual (width_of_addr h)
theorem monitorSAp : Statement .monitorSAp := fun cfg _ => width_monitor cfg
theorem predictSAs (addr : Bits) : Statement (.predictSAs addr) := fun _ h => width_predict (width_of_addr h)
theorem updateSAs (addr : Bits) (actual : BranchResult) : Statement (.updateSAs addr actual) :=
  fun _ h => width_update actual (width_of_addr h)
theorem monitorSAs : Statement .monitorSAs := fun cfg _ => width_monitor cfg

end Sys2Proof.Laws.EncodeWidth
end

