-- ==== Sys2Proof/Laws/Step.lean ====
section
/-! SUPPORT. What one operation and one clock edge can do, said once; the decoder on a word given by its fields. -/

namespace Sys2Proof.Machine

/-- R54, R64: the decoder on a command word given by its fields. -/
@[simp] theorem decode_cmdWord (cfg : Config) (addr : Bits) (actual op1 op0 : Bit) :
    decode cfg (cmdWord addr actual op1 op0) = .ok (selectRow cfg.variant addr actual op1 op0) := by
  simp [decode, cmdWord]

/-- R53: a word of at least three bits is made of its fields. -/
theorem cmdWord_exists {cmd : Bits} {n : Nat} (h : cmd.length = n + 3) :
    ∃ addr actual op1 op0, cmd = cmdWord addr actual op1 op0 ∧ addr.length = n := by
  obtain ⟨actual, op1, op0, hd⟩ := List.length_eq_three.1 (show (cmd.drop n).length = 3 by simp [h])
  exact ⟨cmd.take n, actual, op1, op0, by rw [cmdWord, ← hd, List.take_append_drop], by simp [h]⟩

theorem exec_predictInstr (v : Variant) (addr : Bits) (s : State) :
    exec (predictInstr v addr) s = onVariant v s (predict addr) := by cases v <;> rfl

theorem exec_updateInstr (v : Variant) (addr : Bits) (actual : BranchResult) (s : State) :
    exec (updateInstr v addr actual) s = onVariant v s (update addr actual) := by cases v <;> rfl

theorem exec_monitorInstr (v : Variant) (s : State) : exec (monitorInstr v) s = onVariant v s monitor := by
  cases v <;> rfl

/-- R64: every operation is NOP or PREDICT, UPDATE or MONITOR of a variant. -/
theorem instr_cases (i : Instr) :
    i = .nop ∨ (∃ v addr, i = predictInstr v addr) ∨ (∃ v addr actual, i = updateInstr v addr actual) ∨
      ∃ v, i = monitorInstr v := by
  cases i with
  | nop => exact .inl rfl
  | predictGAg a => exact .inr (.inl ⟨.GAg, a, rfl⟩)
  | predictPAp a => exact .inr (.inl ⟨.PAp, a, rfl⟩)
  | predictPAs a => exact .inr (.inl ⟨.PAs, a, rfl⟩)
  | predictSAp a => exact .inr (.inl ⟨.SAp, a, rfl⟩)
  | predictSAs a => exact .inr (.inl ⟨.SAs, a, rfl⟩)
  | updateGAg a r => exact .inr (.inr (.inl ⟨.GAg, a, r, rfl⟩))
  | updatePAp a r => exact .inr (.inr (.inl ⟨.PAp, a, r, rfl⟩))
  | updatePAs a r => exact .inr (.inr (.inl ⟨.PAs, a, r, rfl⟩))
  | updateSAp a r => exact .inr (.inr (.inl ⟨.SAp, a, r, rfl⟩))
  | updateSAs a r => exact .inr (.inr (.inl ⟨.SAs, a, r, rfl⟩))
  | monitorGAg => exact .inr (.inr (.inr ⟨.GAg, rfl⟩))
  | monitorPAp => exact .inr (.inr (.inr ⟨.PAp, rfl⟩))
  | monitorPAs => exact .inr (.inr (.inr ⟨.PAs, rfl⟩))
  | monitorSAp => exact .inr (.inr (.inr ⟨.SAp, rfl⟩))
  | monitorSAs => exact .inr (.inr (.inr ⟨.SAs, rfl⟩))

/-- R124: the next state of PREDICT on a usable, well-formed instance of its variant. -/
theorem exec_predict_next {s : State} {addr : Bits} {i : HistIndex} {key : Bits} (hw : s.Wf)
    (hs : Selects s addr i key) :
    exec (predictInstr s.cfg.variant addr) s =
      .next ((predicted s i key).setResp (.prediction (predictionOf (readOr s.cfg.S s.pht key)))) := by
  rw [exec_predictInstr, onVariant_run hw.1 rfl, predict_answers hw hs]; rfl

/-- R125: the next state of UPDATE on a usable, well-formed instance of its variant. -/
theorem exec_update_next {s : State} {addr : Bits} {i : HistIndex} {key : Bits} (actual : BranchResult) (hw : s.Wf)
    (hs : Selects s addr i key) :
    exec (updateInstr s.cfg.variant addr actual) s = .next ((updated s i key actual).setResp .none) := by
  rw [exec_updateInstr, onVariant_run hw.1 rfl, update_answers actual hw hs]; rfl

/-- R126: the next state of MONITOR on an admitted instance of its variant. -/
theorem exec_monitor_next {s : State} (hl : legal s.cfg = true) :
    exec (monitorInstr s.cfg.variant) s = .next (s.setResp (.snapshot (snapshotOf s))) := by
  rw [exec_monitorInstr, onVariant_run hl rfl]; rfl

/-- R64: the operations of an instance are its variant's PREDICT and UPDATE on addresses of its width, its MONITOR,
and NOP. -/
theorem wf_cases {cfg : Config} {i : Instr} (h : i.wf cfg = true) :
    i = .nop ∨ (∃ addr, addr.length = cfg.A ∧ i = predictInstr cfg.variant addr) ∨
      (∃ addr actual, addr.length = cfg.A ∧ i = updateInstr cfg.variant addr actual) ∨
      i = monitorInstr cfg.variant := by
  cases i <;> simp [Instr.wf, ofVariant, addrFits] at h <;> simp [h, predictInstr, updateInstr, monitorInstr]

/-- Everything an operation that answers a next state can have done: nothing but the response, raised a violation,
or the effect of PREDICT or UPDATE on the entries it selects. -/
theorem exec_eq_next {i : Instr} {s t : State} (h : exec i s = .next t) :
    (∃ r, (∀ c, r ≠ .violation c) ∧ t = s.setResp r) ∨ (∃ c, t = raise c s) ∨
      (∃ x key r, (∃ v addr, i = predictInstr v addr ∧ Selects s addr x key) ∧
        (readOr s.cfg.S s.pht key).length = s.cfg.S ∧ t = (predicted s x key).setResp (.prediction r)) ∨
      (∃ x key actual, (∃ v addr, i = updateInstr v addr actual ∧ Selects s addr x key) ∧
        (readOr s.cfg.S s.pht key).length = s.cfg.S ∧ (∀ j, x = .entry j → (histBits s x).length = s.cfg.H) ∧
        t = (updated s x key actual).setResp .none) := by
  rcases instr_cases i with rfl | ⟨v, addr, rfl⟩ | ⟨v, addr, actual, rfl⟩ | ⟨v, rfl⟩
  · simp only [exec, execNop, Host.Outcome.next.injEq] at h
    exact .inl ⟨.none, by simp, h.symm⟩
  · rw [exec_predictInstr, onVariant_eq_next, finish_eq_next] at h
    obtain ⟨-, -, ⟨s', x, hp, rfl⟩ | ⟨c, -, rfl⟩⟩ := h
    · obtain ⟨x, key, hs, hl, rfl, rfl⟩ := predict_eq_ok.1 hp
      exact .inr (.inr (.inl ⟨x, key, _, ⟨v, addr, rfl, hs⟩, hl, rfl⟩))
    · exact .inr (.inl ⟨c, rfl⟩)
  · rw [exec_updateInstr, onVariant_eq_next, finish_eq_next] at h
    obtain ⟨-, -, ⟨s', x, hp, rfl⟩ | ⟨c, -, rfl⟩⟩ := h
    · obtain ⟨x, key, hs, hl, hh, rfl, rfl⟩ := update_eq_ok.1 hp
      exact .inr (.inr (.inr ⟨x, key, actual, ⟨v, addr, rfl, hs⟩, hl, hh, rfl⟩))
    · exact .inr (.inl ⟨c, rfl⟩)
  · rw [exec_monitorInstr, onVariant_eq_next, finish_eq_next] at h
    obtain ⟨-, -, ⟨s', x, hp, rfl⟩ | ⟨c, -, rfl⟩⟩ := h
    · simp only [monitor, Except.ok.injEq, Prod.mk.injEq] at hp
      obtain ⟨rfl, rfl⟩ := hp
      exact .inl ⟨_, by simp, rfl⟩
    · exact .inr (.inl ⟨c, rfl⟩)

/-- Everything a clock edge that answers a next state can have done. -/
theorem step_eq_next {s t : State} (h : step s = .next t) :
    (s.input = [] ∧ t = s.setResp .none) ∨
      ∃ edge later, s.input = edge :: later ∧
        ((edge.rst = true ∧ t = resetInstance (s.setInput later)) ∨
          (edge.rst = false ∧ edge.cmdValid = false ∧ t = (s.setInput later).setResp .none) ∨
          (edge.rst = false ∧ edge.cmdValid = true ∧
            ∃ i, decode s.cfg edge.cmd = .ok i ∧ exec i (s.setInput later) = .next t)) := by
  unfold step at h
  split at h
  · exact .inl ⟨‹_›, by simpa using h.symm⟩
  · rename_i edge later hin
    refine .inr ⟨edge, later, hin, ?_⟩
    split at h
    · exact .inl ⟨‹_›, by simpa using h.symm⟩
    · rename_i hr
      split at h
      · rename_i hv
        split at h
        · exact .inr (.inr ⟨by simpa using hr, hv, _, ‹_›, h⟩)
        · cases h
      · rename_i hv
        exact .inr (.inl ⟨by simpa using hr, by simpa using hv, by simpa using h.symm⟩)

end Sys2Proof.Machine
end

