-- ==== Sys2Proof/Machine/Trace.lean ====
section
/-! DEFINITION. Running the trace notation (rules R62, R63): the result of each line and the state it leaves. -/

namespace Sys2Proof.Machine

/-- R120: the response of one operation with the state after it. -/
def execResult (i : Instr) (s : State) : Host.Outcome (Response × State) Fault Refusal :=
  match exec i s with
  | .next t => .next (t.resp, t)
  | .fault r => .fault r
  | .refused r => .refused r

/-- R39: the items of a list one after the other, each on the state the one before it left: their results in order
with the last state. -/
def execInOrder {α : Type} (run : α → State → Host.Outcome (Response × State) Fault Refusal) :
    List α → State → Host.Outcome (List Response × State) Fault Refusal
  | [], s => .next ([], s)
  | a :: rest, s =>
    match run a s with
    | .fault r => .fault r
    | .refused r => .refused r
    | .next (result, t) =>
      match execInOrder run rest t with
      | .fault r => .fault r
      | .refused r => .refused r
      | .next (results, u) => .next (result :: results, u)

/-- R62, R63: one line of a trace. It runs the operations the line stands for, and its result is that of the first:
the response of the one operation of `P`, `U`, `M` or `NOP`, and the result of the PREDICT of `B`. -/
def execLine (line : TraceOp) (s : State) : Host.Outcome (Response × State) Fault Refusal :=
  match execInOrder execResult (expandTrace s.cfg.variant line) s with
  | .fault r => .fault r
  | .refused r => .refused r
  | .next (results, t) => .next (results.headD .none, t)

/-- R62: a trace, one result per line. -/
def execTrace : List TraceOp → State → Host.Outcome (List Response × State) Fault Refusal :=
  execInOrder execLine

/-- R62: a trace preceded by its configuration line. It starts from the construction state, and there is no run where
construction is refused (R163). -/
def runTrace (config : Params) (lines : List TraceOp) :
    Except ViolationCode (Host.Outcome (List Response × State) Fault Refusal) :=
  (construct config).map (execTrace lines)

end Sys2Proof.Machine
end

