-- ==== Sys2Proof/Laws/Trace.lean ====
section
/-! SUPPORT. What a trace line can answer, said once for each form of line (rules R62, R63). -/

namespace Sys2Proof.Machine

@[simp] theorem execResult_eq_next {i : Instr} {s t : State} {r : Response} :
    execResult i s = .next (r, t) ↔ exec i s = .next t ∧ t.resp = r := by
  unfold execResult
  cases exec i s <;> simp
  constructor
  · rintro ⟨rfl, rfl⟩
    exact ⟨rfl, rfl⟩
  · rintro ⟨rfl, rfl⟩
    exact ⟨rfl, rfl⟩

@[simp] theorem execInOrder_nil {α : Type} {run : α → State → Host.Outcome (Response × State) Fault Refusal} {s : State} :
    execInOrder run [] s = .next ([], s) := rfl

theorem execInOrder_cons_eq_next {α : Type} {run : α → State → Host.Outcome (Response × State) Fault Refusal}
    {a : α} {rest : List α} {s u : State} {results : List Response} :
    execInOrder run (a :: rest) s = .next (results, u) ↔
      ∃ r t rs, run a s = .next (r, t) ∧ execInOrder run rest t = .next (rs, u) ∧ results = r :: rs := by
  rw [execInOrder]
  rcases run a s with ⟨r, t⟩ | _ | _ <;> simp
  rcases execInOrder run rest t with ⟨rs, u'⟩ | _ | _ <;> simp
  exact ⟨fun ⟨h, h'⟩ => ⟨h', h.symm⟩, fun ⟨h, h'⟩ => ⟨h'.symm, h⟩⟩

/-- One result per item. -/
theorem execInOrder_length {α : Type} {run : α → State → Host.Outcome (Response × State) Fault Refusal} :
    ∀ {l : List α} {s u : State} {results : List Response},
      execInOrder run l s = .next (results, u) → results.length = l.length
  | [], s, u, results, h => by cases h; rfl
  | _ :: _, s, u, results, h => by
    obtain ⟨r, t, rs, -, hr, rfl⟩ := execInOrder_cons_eq_next.1 h
    simp [execInOrder_length hr]

theorem execLine_eq_next {line : TraceOp} {s u : State} {r : Response} :
    execLine line s = .next (r, u) ↔
      ∃ results, execInOrder execResult (expandTrace s.cfg.variant line) s = .next (results, u) ∧
        results.headD .none = r := by
  unfold execLine
  rcases execInOrder execResult (expandTrace s.cfg.variant line) s with ⟨rs, t⟩ | _ | _ <;> simp
  exact and_comm

/-- R62: a line that stands for one operation answers what the operation answers. -/
theorem execLine_single {line : TraceOp} {i : Instr} {s u : State} {r : Response}
    (h : expandTrace s.cfg.variant line = [i]) :
    execLine line s = .next (r, u) ↔ exec i s = .next u ∧ u.resp = r := by
  rw [execLine_eq_next, h]
  constructor
  · rintro ⟨_, hr, rfl⟩
    obtain ⟨r, t, rs, hx, hn, rfl⟩ := execInOrder_cons_eq_next.1 hr
    cases hn
    simpa using hx
  · rintro ⟨hx, rfl⟩
    exact ⟨[u.resp], execInOrder_cons_eq_next.2 ⟨_, _, [], execResult_eq_next.2 ⟨hx, rfl⟩, rfl, rfl⟩, rfl⟩

/-- R63: `B` runs PREDICT and then UPDATE of the same address, and its result is the result of the PREDICT. -/
theorem execLine_branch {addr : Bits} {actual : BranchResult} {s u : State} {r : Response} :
    execLine (.branch addr actual) s = .next (r, u) ↔
      ∃ p, exec (predictInstr s.cfg.variant addr) s = .next p ∧
        exec (updateInstr s.cfg.variant addr actual) p = .next u ∧ p.resp = r := by
  rw [execLine_eq_next, expandTrace]
  constructor
  · rintro ⟨_, hr, rfl⟩
    obtain ⟨r, p, rs, hp, hu, rfl⟩ := execInOrder_cons_eq_next.1 hr
    obtain ⟨r', u', rs', hu, hn, rfl⟩ := execInOrder_cons_eq_next.1 hu
    cases hn
    rw [execResult_eq_next] at hp hu
    exact ⟨p, hp.1, hu.1, hp.2⟩
  · rintro ⟨p, hp, hu, rfl⟩
    exact ⟨[p.resp, u.resp], execInOrder_cons_eq_next.2 ⟨_, p, [u.resp], execResult_eq_next.2 ⟨hp, rfl⟩,
      execInOrder_cons_eq_next.2 ⟨_, u, [], execResult_eq_next.2 ⟨hu, rfl⟩, rfl, rfl⟩, rfl⟩, rfl⟩

end Sys2Proof.Machine
end

