-- ==== Sys2Proof/Tests/Slice0.lean ====
section
/-! SUPPORT. The model's own tests. Expected values are the spec's: 95_test_vectors.md (S1 to S3, T1 to T19, PROG1 to
PROG7), the tables of rules R104 and R109 and the examples of the rules named. The last part shows, for each statement
with hypotheses, values that meet them. -/

namespace Sys2Proof.Tests

open Sys2Proof.Machine

/-- A vector written as the spec writes it, index 0 first. -/
def bits (l : List Nat) : Bits := l.map fun n => decide (n = 1)

/-- `H = 2`, `S = 2`, `A = 4`, and `K = 2` where it applies: the parameters of most vectors of the spec. -/
def cfg4 (v : Variant) : Config := { variant := v, H := 2, S := 2, A := 4, K := if hashes v then 2 else 0 }

/-- `H = 2`, `S = 2`, `A = 3` (PROG2, T8, T9). -/
def cfg3 (v : Variant) : Config := { cfg4 v with A := 3 }

/-- The least parameters: one bit each. -/
def cfg1 (v : Variant) : Config := { variant := v, H := 1, S := 1, A := 1, K := if hashes v then 1 else 0 }

/-- A state by its registers and tables. -/
def st (cfg : Config) (bhr : Bits) (bank pht : Table) (sc : Bits) : State :=
  { State.fresh cfg with bhr := bhr, bank := bank, pht := pht, sc := sc }

/-- The next state, where there is one. -/
def after : Host.Outcome State Fault Refusal → Option State
  | .next s => some s
  | .fault _ => none
  | .refused _ => none

/-- A GAg state. -/
def gag (bhr : List Nat) (pht : Table) (sc : List Nat) : State := st (cfg4 .GAg) (bits bhr) [] pht (bits sc)

/-- A state of a variant with a bank, `cfg4`. -/
def banked (v : Variant) (bank pht : Table) (sc : List Nat) : State := st (cfg4 v) [] bank pht (bits sc)

/-! ## Well-formed operations -/

/-- An address shorter than `A` is refused. -/
theorem test_wf_refuses_short_address : (Instr.predictGAg (bits [1, 0, 1])).wf (cfg4 .GAg) = false := by decide

/-- An address longer than `A` is refused. -/
theorem test_wf_refuses_long_address :
    (Instr.updateSAs (bits [1, 0, 1, 0, 1]) .taken).wf (cfg4 .SAs) = false := by decide

/-- An operation of another variant is refused. -/
theorem test_wf_refuses_other_variant :
    (Instr.predictPAp (bits [1, 0, 1, 0])).wf (cfg4 .GAg) = false ∧ Instr.monitorSAp.wf (cfg4 .SAs) = false := by
  decide

/-! ## Decoding: words written out from R53 and R54, `addr` then `actual` then `op` -/

/-- S1: `P 1010` is 1010001, `U 1010 T` is 1010110. -/
theorem test_decode_gag :
    decode (cfg4 .GAg) (bits [1, 0, 1, 0, 0, 0, 1]) = .ok (.predictGAg (bits [1, 0, 1, 0])) ∧
    decode (cfg4 .GAg) (bits [1, 0, 1, 0, 1, 1, 0]) = .ok (.updateGAg (bits [1, 0, 1, 0]) .taken) ∧
    decode (cfg4 .GAg) (bits [0, 0, 0, 0, 0, 1, 1]) = .ok .monitorGAg ∧
    decode (cfg4 .GAg) (bits [0, 0, 0, 0, 0, 0, 0]) = .ok .nop := by decide

/-- PROG2: `P 101` is 101001, `U 010 N` is 010010. -/
theorem test_decode_pap :
    decode (cfg3 .PAp) (bits [1, 0, 1, 0, 0, 1]) = .ok (.predictPAp (bits [1, 0, 1])) ∧
    decode (cfg3 .PAp) (bits [0, 1, 0, 0, 1, 0]) = .ok (.updatePAp (bits [0, 1, 0]) .notTaken) ∧
    decode (cfg3 .PAp) (bits [0, 0, 0, 0, 1, 1]) = .ok .monitorPAp := by decide

/-- PROG3: `P 1011` is 1011001, `U 0001 T` is 0001110. -/
theorem test_decode_pas :
    decode (cfg4 .PAs) (bits [1, 0, 1, 1, 0, 0, 1]) = .ok (.predictPAs (bits [1, 0, 1, 1])) ∧
    decode (cfg4 .PAs) (bits [0, 0, 0, 1, 1, 1, 0]) = .ok (.updatePAs (bits [0, 0, 0, 1]) .taken) ∧
    decode (cfg4 .PAs) (bits [0, 0, 0, 0, 0, 1, 1]) = .ok .monitorPAs := by decide

/-- PROG3: `P 0001` is 0001001, `U 1011 T` is 1011110. -/
theorem test_decode_sap :
    decode (cfg4 .SAp) (bits [0, 0, 0, 1, 0, 0, 1]) = .ok (.predictSAp (bits [0, 0, 0, 1])) ∧
    decode (cfg4 .SAp) (bits [1, 0, 1, 1, 1, 1, 0]) = .ok (.updateSAp (bits [1, 0, 1, 1]) .taken) ∧
    decode (cfg4 .SAp) (bits [0, 0, 0, 0, 0, 1, 1]) = .ok .monitorSAp := by decide

/-- PROG3: `P 0100` is 0100001, `U 0100 N` is 0100010. -/
theorem test_decode_sas :
    decode (cfg4 .SAs) (bits [0, 1, 0, 0, 0, 0, 1]) = .ok (.predictSAs (bits [0, 1, 0, 0])) ∧
    decode (cfg4 .SAs) (bits [0, 1, 0, 0, 0, 1, 0]) = .ok (.updateSAs (bits [0, 1, 0, 0]) .notTaken) ∧
    decode (cfg4 .SAs) (bits [0, 0, 0, 0, 0, 1, 1]) = .ok .monitorSAs := by decide

/-- R62: `U 1010 T` under `A = 4` is `0x56`; PROG4: `U 11 T` under `A = 2` is `0x1E`; PROG7: `U 1 N` is `0xA`. -/
theorem test_command_word_value :
    val (encode (cfg4 .GAg) (.updateGAg (bits [1, 0, 1, 0]) .taken)) = 0x56 ∧
    val (encode { cfg4 .GAg with A := 2 } (.updateGAg (bits [1, 1]) .taken)) = 0x1E ∧
    val (encode { cfg4 .GAg with A := 1 } (.updateGAg (bits [1]) .notTaken)) = 0xA := by decide

/-- A word with no `op` and `actual` fields gives no operation. -/
theorem test_decode_short_word : decode (cfg4 .GAg) (bits [0, 1]) = .error .shortCommand := by decide

/-- R63: `B addr T` is PREDICT and then UPDATE of the same address. -/
theorem test_branch_expands :
    expandTrace .PAp (.branch (bits [1, 0, 1]) .taken) =
      [.predictPAp (bits [1, 0, 1]), .updatePAp (bits [1, 0, 1]) .taken] := by decide

/-- PROG1 steps 9 and 10: `B 0110 N` answers TAKEN, the result of its PREDICT, and leaves the state after its UPDATE. -/
theorem test_branch_result :
    execLine (.branch (bits [0, 1, 1, 0]) .notTaken) (gag [1, 1]
      [(bits [0, 0], bits [0, 1]), (bits [0, 1], bits [0, 1]), (bits [1, 1], bits [1, 0])] [0, 1]) =
    .next (.prediction .taken, gag [1, 0]
      [(bits [0, 0], bits [0, 1]), (bits [0, 1], bits [0, 1]), (bits [1, 1], bits [0, 1])] [1, 0]) := rfl

/-- PROG3a steps 1 and 2 from the construction state, then `NOP`: one result per line. -/
theorem test_trace_results :
    runTrace ⟨4, 2, 2, 4, some 2, some .xor, .saturating⟩ [.branch (bits [1, 0, 1, 1]) .taken, .nop] =
    .ok (.next ([.prediction .notTaken, .none],
      banked .SAs [(bits [0, 1], bits [0, 1])] [(bits [0, 1, 0, 0], bits [0, 1])] [0, 0])) := rfl

/-- The host's words: `0x1` is PREDICT on the variant `State.reset` stands for, and the very next step runs it. -/
theorem test_table_word :
    decodeTableWord 8 1 = some (.predictGAg (zeros 5)) ∧
    after (step (State.reset.withFetchWord 8 1)) = after (exec (.predictGAg (zeros 5)) State.reset) := by decide

/-! ## Vectors and combinational logic -/

/-- R7, R71: the value of `[1,0] ‖ [0,1]` is 9. -/
theorem test_val_append : val (bits [1, 0] ++ bits [0, 1]) = 9 ∧ vec 4 9 = bits [1, 0, 0, 1] := by decide

/-- Section 2.2 of the vectors. -/
theorem test_shift_insert :
    shiftInsert (bits [0, 0]) true = bits [0, 1] ∧ shiftInsert (bits [1, 0]) false = bits [0, 0] ∧
    shiftInsert (bits [1, 1, 1, 0]) true = bits [1, 1, 0, 1] ∧ shiftInsert (bits [1]) false = bits [0] ∧
    clearReg (bits [1, 1]) = bits [0, 0] := by decide

/-- R104: the table for `S = 2` and the rows of `S = 1` and `S = 3` at the ends and at the flip. -/
theorem test_count :
    (bits [0] |> (count · true)) = bits [1] ∧ count (bits [1]) false = bits [0] ∧
    count (bits [0, 0]) true = bits [0, 1] ∧ count (bits [0, 1]) true = bits [1, 0] ∧
    count (bits [1, 0]) true = bits [1, 1] ∧ count (bits [1, 1]) true = bits [1, 1] ∧
    count (bits [0, 0]) false = bits [0, 0] ∧ count (bits [1, 0]) false = bits [0, 1] ∧
    count (bits [0, 1, 1]) true = bits [1, 0, 0] ∧ count (bits [1, 0, 0]) false = bits [0, 1, 1] := by decide

/-- R109 and section 2.6 of the vectors. -/
theorem test_hash :
    hashFold (bits [1, 0, 1, 1]) 1 = some (bits [1]) ∧ hashFold (bits [1, 0, 1, 1]) 2 = some (bits [0, 1]) ∧
    hashFold (bits [1, 0, 1, 1]) 3 = some (bits [0, 0, 1]) ∧
    hashFold (bits [1, 0, 1, 1]) 4 = some (bits [1, 0, 1, 1]) ∧
    hashFold (bits [1, 0, 1, 1, 0]) 2 = some (bits [0, 1]) ∧
    hashFold (bits [1, 1, 0, 1, 0, 0]) 4 = some (bits [1, 1, 0, 1]) ∧
    hashFold (bits [0, 0, 0, 0, 0, 0, 0, 1]) 3 = some (bits [0, 1, 0]) ∧ hashFold (bits [1, 0]) 3 = none := by
  decide

/-- Section 2.7 of the vectors: index and key of address 1011 with history 10. -/
theorem test_keys :
    tkey (cfg4 .GAg) (bits [1, 0, 1, 1]) (bits [1, 0]) = some (bits [1, 0]) ∧
    tkey (cfg4 .PAp) (bits [1, 0, 1, 1]) (bits [1, 0]) = some (bits [1, 0, 1, 1, 1, 0]) ∧
    tkey (cfg4 .PAs) (bits [1, 0, 1, 1]) (bits [1, 0]) = some (bits [0, 1, 1, 0]) ∧
    hidx (cfg4 .PAs) (bits [1, 0, 1, 1]) = some (.entry (bits [1, 0, 1, 1])) ∧
    hidx (cfg4 .SAp) (bits [1, 0, 1, 1]) = some (.entry (bits [0, 1])) := by decide

/-! ## One step of each operation -/

/-- T3: top bit 1, `SC` loaded, TAKEN. -/
theorem test_predict_gag :
    after (exec (.predictGAg (bits [0, 1, 1, 0])) (gag [1, 1] [(bits [1, 1], bits [1, 0])] [0, 0])) =
      some { gag [1, 1] [(bits [1, 1], bits [1, 0])] [1, 0] with resp := .prediction .taken } := by decide

/-- S1 step 2. -/
theorem test_update_gag :
    after (exec (.updateGAg (bits [1, 0, 1, 0]) .taken) (gag [0, 0] [(bits [0, 0], bits [0, 0])] [0, 0])) =
      some (gag [0, 1] [(bits [0, 0], bits [0, 1])] [0, 0]) := by decide

/-- T8: PREDICT creates the bank register and the table entry. -/
theorem test_predict_pap :
    after (exec (.predictPAp (bits [1, 0, 1])) (State.fresh (cfg3 .PAp))) =
      some { st (cfg3 .PAp) [] [(bits [1, 0, 1], bits [0, 0])] [(bits [1, 0, 1, 0, 0], bits [0, 0])] (bits [0, 0])
        with resp := .prediction .notTaken } := by decide

/-- T9: the counter is written under the key of the old history. -/
theorem test_update_pap :
    after (exec (.updatePAp (bits [1, 0, 1]) .notTaken)
      (st (cfg3 .PAp) [] [(bits [1, 0, 1], bits [1, 1])] [(bits [1, 0, 1, 1, 1], bits [1, 0])] (bits [0, 0]))) =
      some (st (cfg3 .PAp) [] [(bits [1, 0, 1], bits [1, 0])] [(bits [1, 0, 1, 1, 1], bits [0, 1])] (bits [0, 0])) := by
  decide

/-- PROG3c step 7: a fresh address is predicted TAKEN by the counter its set trained. -/
theorem test_predict_pas :
    after (exec (.predictPAs (bits [0, 1, 0, 0]))
      (banked .PAs [(bits [0, 0, 0, 1], bits [0, 1]), (bits [1, 0, 1, 1], bits [1, 1])]
        [(bits [0, 1, 0, 0], bits [1, 0]), (bits [0, 1, 0, 1], bits [0, 1])] [0, 0])) =
      some { banked .PAs
        [(bits [0, 0, 0, 1], bits [0, 1]), (bits [0, 1, 0, 0], bits [0, 0]), (bits [1, 0, 1, 1], bits [1, 1])]
        [(bits [0, 1, 0, 0], bits [1, 0]), (bits [0, 1, 0, 1], bits [0, 1])] [1, 0]
        with resp := .prediction .taken } := by decide

/-- PROG3c step 4. -/
theorem test_update_pas :
    after (exec (.updatePAs (bits [0, 0, 0, 1]) .taken)
      (banked .PAs [(bits [0, 0, 0, 1], bits [0, 0]), (bits [1, 0, 1, 1], bits [0, 1])]
        [(bits [0, 1, 0, 0], bits [0, 1])] [0, 1])) =
      some (banked .PAs [(bits [0, 0, 0, 1], bits [0, 1]), (bits [1, 0, 1, 1], bits [0, 1])]
        [(bits [0, 1, 0, 0], bits [1, 0])] [0, 1]) := by decide

/-- R146: the set's history with the full address. -/
theorem test_predict_sap :
    after (exec (.predictSAp (bits [0, 0, 0, 1]))
      (banked .SAp [(bits [0, 1], bits [0, 1])] [(bits [1, 0, 1, 1, 0, 0], bits [0, 1])] [0, 0])) =
      some { banked .SAp [(bits [0, 1], bits [0, 1])]
        [(bits [0, 0, 0, 1, 0, 1], bits [0, 0]), (bits [1, 0, 1, 1, 0, 0], bits [0, 1])] [0, 0]
        with resp := .prediction .notTaken } := by decide

/-- R147: the bank is written at the hash. -/
theorem test_update_sap :
    after (exec (.updateSAp (bits [0, 0, 0, 1]) .taken)
      (banked .SAp [(bits [0, 1], bits [0, 1])]
        [(bits [0, 0, 0, 1, 0, 1], bits [0, 0]), (bits [1, 0, 1, 1, 0, 0], bits [0, 1])] [0, 0])) =
      some (banked .SAp [(bits [0, 1], bits [1, 1])]
        [(bits [0, 0, 0, 1, 0, 1], bits [0, 1]), (bits [1, 0, 1, 1, 0, 0], bits [0, 1])] [0, 0]) := by decide

/-- T10. -/
theorem test_predict_sas :
    after (exec (.predictSAs (bits [0, 1, 0, 0]))
      (banked .SAs [(bits [0, 1], bits [1, 1])] [(bits [0, 1, 1, 1], bits [0, 1])] [0, 0])) =
      some { banked .SAs [(bits [0, 1], bits [1, 1])] [(bits [0, 1, 1, 1], bits [0, 1])] [0, 1]
        with resp := .prediction .notTaken } := by decide

/-- PROG3a step 8. -/
theorem test_update_sas :
    after (exec (.updateSAs (bits [0, 1, 0, 0]) .notTaken)
      (banked .SAs [(bits [0, 1], bits [1, 1])] [(bits [0, 1, 0, 0], bits [0, 1]), (bits [0, 1, 0, 1], bits [0, 1]),
        (bits [0, 1, 1, 1], bits [0, 1])] [0, 1])) =
      some (banked .SAs [(bits [0, 1], bits [1, 0])] [(bits [0, 1, 0, 0], bits [0, 1]),
        (bits [0, 1, 0, 1], bits [0, 1]), (bits [0, 1, 1, 1], bits [0, 0])] [0, 1]) := by decide

/-- T16. -/
theorem test_monitor_gag :
    after (exec .monitorGAg (State.fresh (cfg4 .GAg))) = some { State.fresh (cfg4 .GAg) with
      resp := .snapshot ⟨.GAg, 2, 2, 4, none, some (bits [0, 0]), none, [], bits [0, 0], false⟩ } := by decide

/-- T17. -/
theorem test_monitor_sas :
    (after (exec .monitorSAs (banked .SAs [(bits [0, 1], bits [1, 1])]
      [(bits [0, 1, 0, 0], bits [0, 1]), (bits [0, 1, 0, 1], bits [0, 1])] [0, 0]))).map State.resp =
      some (.snapshot ⟨.SAs, 2, 2, 4, some 2, none, some [(bits [0, 1], bits [1, 1])],
        [(bits [0, 1, 0, 0], bits [0, 1]), (bits [0, 1, 0, 1], bits [0, 1])], bits [0, 0], false⟩) := by decide

/-- R165: MONITOR of a failed instance shows `failed = 1`; the variants without `K` and with it. -/
theorem test_monitor_failed :
    (after (exec .monitorPAp { State.fresh (cfg4 .PAp) with failed := true })).map State.resp =
      some (.snapshot ⟨.PAp, 2, 2, 4, none, none, some [], [], bits [0, 0], true⟩) ∧
    (after (exec .monitorPAs { State.fresh (cfg4 .PAs) with failed := true })).map State.resp =
      some (.snapshot ⟨.PAs, 2, 2, 4, some 2, none, some [], [], bits [0, 0], true⟩) ∧
    (after (exec .monitorSAp { State.fresh (cfg4 .SAp) with failed := true })).map State.resp =
      some (.snapshot ⟨.SAp, 2, 2, 4, some 2, none, some [], [], bits [0, 0], true⟩) := by decide

/-- T18. -/
theorem test_nop :
    after (exec .nop (gag [1, 1] [(bits [1, 1], bits [1, 0])] [1, 0])) =
      some (gag [1, 1] [(bits [1, 1], bits [1, 0])] [1, 0]) := by decide

/-! ## Violations, reset and construction -/

/-- T11: refusal after a violation. -/
theorem test_failed_refuses :
    (after (exec (.predictSAs (bits [0, 0, 0, 0])) { State.fresh (cfg4 .SAs) with failed := true })).map State.resp =
      some (.violation .failedEarlier) := by decide

/-- T12, T13: a shorter and a longer address, through the command word of that length. -/
theorem test_width_violation :
    after (step { State.fresh (cfg4 .GAg) with input := [present (bits [1, 0, 1, 0, 0, 1])] }) =
      some { State.fresh (cfg4 .GAg) with failed := true, resp := .violation .addrWidth } ∧
    after (exec (.predictGAg (bits [1, 0, 1, 0, 1])) (State.fresh (cfg4 .GAg))) =
      some { State.fresh (cfg4 .GAg) with failed := true, resp := .violation .addrWidth } := by decide

/-- T19. -/
theorem test_reset_edge :
    after (step { st (cfg3 .PAp) [] [(bits [1, 0, 1], bits [1, 1])] [(bits [1, 0, 1, 1, 1], bits [1, 0])] (bits [1, 0])
      with failed := true, input := [resetEdge] }) = some (State.fresh (cfg3 .PAp)) := by decide

/-- T14, T15 and R57: `K > A`, `S = 0` and a reserved variant code are refused; the legal request of PROG3 is not. -/
theorem test_construct :
    admittedConfig ⟨2, 2, 2, 2, some 3, some .xor, .saturating⟩ = none ∧
    admittedConfig ⟨0, 2, 0, 4, none, none, .saturating⟩ = none ∧
    admittedConfig ⟨5, 2, 2, 4, some 2, some .xor, .saturating⟩ = none ∧
    admittedConfig ⟨2, 2, 2, 4, some 2, some .other, .saturating⟩ = none ∧
    admittedConfig ⟨2, 2, 2, 4, some 2, some .xor, .saturating⟩ = some (cfg4 .PAs) := by decide

/-- Section 2.2: `load(SC, 101)` with `S = 2` is V2. -/
theorem test_load_wrong_width : loadReg 2 (bits [1, 0, 1]) = .error (.violation .valueWidth) := rfl

/-! ## Values that meet the hypotheses of each statement

`low v` is an instance of the least parameters, in which everything address 1 selects is trained and everything address 0
selects is absent, or shared with address 1 where the variant shares it. A statement with clauses has a value for each
clause; a clause whose condition is the negation of another's, or the naming of a variant, is met by the values shown. -/

/-- The keys and indices of `low` hold one bit per component. -/
def low (v : Variant) : State :=
  match v with
  | .GAg => st (cfg1 v) [true] [] [([true], [true])] [false]
  | _ => st (cfg1 v) [] [([true], [true])] [([true, true], [true])] [false]

/-- `low`, failed. -/
def lowFailed (v : Variant) : State := { low v with failed := true }

/-- `low` with what the caller will present. -/
def lowWith (v : Variant) (edges : List ClockEdge) : State := { low v with input := edges }

/-- The variants. -/
def variants : List Variant := [.GAg, .PAp, .PAs, .SAp, .SAs]

theorem witness_StepRunsDecodedCommand :
    (lowWith .SAs [present [true, true, true, false]]).input = present [true, true, true, false] :: [] ∧
    (present [true, true, true, false]).rst = false ∧ (present [true, true, true, false]).cmdValid = true ∧
    decode (low .SAs).cfg [true, true, true, false] = .ok (.updateSAs [true] .taken) ∧
    (Instr.updateSAs [true] .taken).wf (low .SAs).cfg = true := by decide

theorem witness_EdgesWithoutCommand :
    (low .GAg).input = [] ∧ (lowWith .GAg [resetEdge]).input = resetEdge :: [] ∧ resetEdge.rst = true ∧
    (lowWith .GAg [⟨false, false, [true]⟩]).input = ⟨false, false, [true]⟩ :: [] := by decide

theorem witness_ResetStateValues : (cfg1 .GAg).variant = .GAg ∧ (cfg1 .PAp).variant ≠ .GAg := by decide

theorem witness_ResetStateMeetsInvariant :
    (∀ v ∈ variants, legal (cfg1 v) = true) ∧ legal { cfg4 .PAs with K := 1 } = true ∧
    legal { cfg4 .PAs with K := 4 } = true := by decide

theorem witness_ConstructionAdmitsExactlyLegalParameters :
    ((⟨0, 1, 1, 1, none, none, .saturating⟩ : Params).variantCode = codeOfVariant .GAg) ∧
    ((⟨1, 1, 1, 1, some 9, some .xor, .saturating⟩ : Params).variantCode = codeOfVariant .PAp) ∧
    ((⟨4, 1, 1, 1, some 1, some .xor, .saturating⟩ : Params).variantCode = codeOfVariant .SAs) ∧
    (5 ≤ (⟨5, 1, 1, 1, none, none, .saturating⟩ : Params).variantCode.toNat) ∧
    ((⟨2, 1, 1, 2, some 3, some .xor, .saturating⟩ : Params).variantCode = codeOfVariant .PAs ∧ 2 < 3) ∧
    ((⟨3, 1, 1, 1, none, none, .saturating⟩ : Params).variantCode = codeOfVariant .SAp) ∧
    ((⟨3, 1, 1, 1, some 0, some .xor, .saturating⟩ : Params).variantCode = codeOfVariant .SAp) ∧
    (⟨0, 0, 0, 0, none, some .other, .other⟩ : Params).H = 0 := by decide

theorem witness_DecodeEncodeRoundTrip :
    (∀ v ∈ variants, (predictInstr v [true]).wf (cfg1 v) = true ∧ (updateInstr v [false] .taken).wf (cfg1 v) = true ∧
      (monitorInstr v).wf (cfg1 v) = true) ∧ Instr.nop.wf (cfg1 .GAg) = true := by decide

theorem witness_DecodeSelectsRowByVariantAndOp : ∀ v ∈ variants, (cfg1 v).variant = v := by decide

theorem witness_CommandWordValue :
    (bits [1, 1, 1, 1]).length = (cfg4 .GAg).A ∧ [true].length = (cfg1 .SAs).A := by decide

theorem witness_IgnoredFieldsHaveNoEffect :
    (low .GAg).cfg.variant = .GAg ∧ (bits [0, 1]).length = (bits [1, 0]).length := by decide

theorem witness_EveryCommandWordIsAnOperation : (bits [1, 1, 1, 1]).length = (cfg1 .PAs).A + 3 := by decide

theorem witness_RefusedFormsStopByName :
    (lowWith .PAp [present [true, true]]).input = present [true, true] :: [] ∧ (present [true, true]).rst = false ∧
    (present [true, true]).cmdValid = true ∧ (present [true, true]).cmd.length < 3 ∧
    legal { low .PAp with cfg := { cfg1 .PAp with H := 0 } }.cfg = false ∧
    legal (low .PAp).cfg = true ∧ (low .PAp).cfg.variant ≠ .GAg := by decide

theorem witness_VectorValues : (0 : Nat) < 2 ^ 0 ∧ (7 : Nat) < 2 ^ 3 := by decide

theorem witness_InsertShiftsOnePosition :
    1 ≤ [true].length ∧ 0 + 2 ≤ (bits [1, 0]).length ∧ (bits [0, 1]).length = (bits [1, 0]).length := by decide

theorem witness_CountStepsAndClamps : 1 ≤ [true].length ∧ 1 ≤ (bits [1, 1, 1]).length := by decide

theorem witness_CountConverges : 2 ^ [true].length - 1 ≤ 1 ∧ 2 ^ (bits [0, 0]).length - 1 ≤ 3 := by decide

theorem witness_PredictionIsUpperHalf : 1 ≤ [false].length ∧ 1 ≤ 1 := by decide

theorem witness_HashFoldsRoundRobin :
    (1 ≤ 1 ∧ 1 ≤ [true].length) ∧ (1 ≤ 4 ∧ 4 ≤ (bits [1, 0, 1, 1]).length) ∧ [true].length < 2 := by decide

theorem witness_HashAlgebra :
    1 ≤ [true].length ∧ ((bits [1, 0]).length = (bits [0, 0]).length ∧ 1 ≤ 2 ∧ 2 ≤ (bits [1, 0]).length) := by decide

theorem witness_BankReadCreatesClearedRegister :
    indexWidth (low .SAp).cfg = some [false].length ∧ tableGet (low .SAp).bank [false] = none ∧
    tableGet (low .SAp).bank [true] = some [true] := by decide

theorem witness_BankWriteStoresOneRegister :
    indexWidth (low .PAs).cfg = some [true].length ∧ [false].length = (low .PAs).cfg.H ∧
    (bits []).length ≠ (low .PAs).cfg.H ∧ [false] ≠ [true] := by decide

theorem witness_BankInsertShiftsOneRegister :
    indexWidth (low .PAp).cfg = some [true].length ∧
    (∀ v, tableGet (low .PAp).bank [true] = some v → v.length = (low .PAp).cfg.H) :=
  ⟨rfl, fun v h => by cases (show some [true] = some v from h); rfl⟩

theorem witness_PhtGetPutPutIfAbsent :
    [true, true].length = keyWidth (low .SAs).cfg ∧ [false].length = (low .SAs).cfg.S ∧
    tableGet (low .SAs).pht [true, true] ≠ none ∧ tableGet (low .SAs).pht [false, true] = none ∧
    (bits [0, 1]).length ≠ (low .SAs).cfg.S := by decide

theorem witness_PhtGetOrInsertDefaultAnswers :
    [false].length = keyWidth (low .GAg).cfg ∧ tableGet (low .GAg).pht [true] = some [true] ∧
    tableGet (low .GAg).pht [false] = none := by decide

theorem witness_WrongWidthsAreValueViolations :
    [true].length = 1 ∧ (bits []).length ≠ 1 ∧ indexWidth (low .PAp).cfg ≠ some (bits [0, 1]).length ∧
    indexWidth (low .GAg).cfg ≠ some [true].length ∧ [true].length ≠ keyWidth (low .SAs).cfg := by decide

theorem witness_CanonicalTablesAreMaps :
    Memory.wf [([false], [true]), ([true], [false])] ∧ Memory.wf [] ∧ [false] ≠ [true] := by decide

theorem witness_AddressingPolicies :
    (∀ v ∈ variants, (low v).Wf) ∧ hidx (low .SAs).cfg [true] = some (.entry [true]) ∧
    hidx (low .GAg).cfg [true] = some .global ∧ hashFold [true] (low .PAs).cfg.K = some [true] :=
  ⟨by decide, rfl, rfl, rfl⟩

theorem witness_AddressingPolicies_read : histRead (.entry [true]) (low .SAs) = .ok ([true], low .SAs) := rfl

theorem witness_IndexAndKeyWidths :
    ∀ v ∈ variants, legal (cfg1 v) = true ∧ [true].length = (cfg1 v).A ∧ [false].length = (cfg1 v).H := by decide

theorem witness_AliasingIsKeyEquality :
    ∀ v ∈ variants, legal (cfg4 v) = true ∧ (bits [1, 0, 1, 1]).length = (cfg4 v).A ∧
      (bits [0, 0, 0, 1]).length = (cfg4 v).A ∧ (bits [1, 0]).length = (cfg4 v).H := by decide

/-- The hypotheses of the statements of one variant's operations: a usable instance with an address of its width, a
failed one, and an address one bit short and one bit long. -/
abbrev EffectHypotheses (v : Variant) : Prop :=
  ((low v).Wf ∧ (low v).cfg.variant = v ∧ (low v).failed = false ∧ [false].length = (low v).cfg.A) ∧
  ((lowFailed v).Wf ∧ (lowFailed v).cfg.variant = v ∧ (lowFailed v).failed = true) ∧
  (bits []).length ≠ (low v).cfg.A ∧ (bits [0, 1]).length ≠ (low v).cfg.A

theorem witness_PredictGAgEffect : EffectHypotheses .GAg := by decide
theorem witness_UpdateGAgEffect : EffectHypotheses .GAg := by decide
theorem witness_PredictPApEffect : EffectHypotheses .PAp := by decide
theorem witness_UpdatePApEffect : EffectHypotheses .PAp := by decide
theorem witness_PredictPAsEffect : EffectHypotheses .PAs := by decide
theorem witness_UpdatePAsEffect : EffectHypotheses .PAs := by decide
theorem witness_PredictSApEffect : EffectHypotheses .SAp := by decide
theorem witness_UpdateSApEffect : EffectHypotheses .SAp := by decide
theorem witness_PredictSAsEffect : EffectHypotheses .SAs := by decide
theorem witness_UpdateSAsEffect : EffectHypotheses .SAs := by decide

theorem witness_NopAndMonitorChangeNothing :
    ∀ v ∈ variants, legal (low v).cfg = true ∧ (low v).cfg.variant = v := by decide

theorem witness_ViolationSetsOnlyFailureFlag :
    exec (.predictGAg []) (low .GAg) = .next { low .GAg with failed := true, resp := .violation .addrWidth } ∧
    exec (.updateSAs [true] .taken) (lowFailed .SAs) =
      .next { lowFailed .SAs with resp := .violation .failedEarlier } := ⟨rfl, rfl⟩

theorem witness_FailedInstanceRefuses :
    ∀ v ∈ variants, legal (lowFailed v).cfg = true ∧ (lowFailed v).cfg.variant = v ∧ (lowFailed v).failed = true := by
  decide

theorem witness_FailedRunsHaveAViolation :
    (∀ e ∈ [present [true, true, false], present [true, false, false, true]], e.rst = false) ∧
    (low .PAs).failed = false ∧
    (runEdges [present [true, true, false], present [true, false, false, true]] (low .PAs)).map Prod.fst =
      some [.violation .addrWidth, .violation .failedEarlier] ∧
    (runEdges [present [true, false, false, true]] (low .PAs)).map Prod.fst = some [.prediction .taken] := by decide

theorem witness_PredictFrame :
    exec (.predictSAs [false]) (low .SAs) = .next { low .SAs with
      bank := [([false], [false]), ([true], [true])], pht := [([false, false], [false]), ([true, true], [true])],
      resp := .prediction .notTaken } ∧
    hidx (low .SAs).cfg [false] ≠ some (.entry [true]) ∧ hidx (low .SAs).cfg [false] = some (.entry [false]) ∧
    tkey (low .SAs).cfg [false] (histBits (low .SAs) (.entry [false])) ≠ some [true, true] ∧
    tableGet (low .SAs).bank [true] = some [true] ∧ tableGet (low .SAs).bank [false] = none ∧
    tableGet (low .SAs).pht [true, true] = some [true] ∧ tableGet (low .SAs).pht [false, false] = none :=
  ⟨rfl, by decide⟩

theorem witness_UpdateFrame :
    exec (.updateSAp [false] .taken) (low .SAp) = .next { low .SAp with
      bank := [([false], [true]), ([true], [true])], pht := [([false, false], [true]), ([true, true], [true])],
      resp := .none } ∧ Variant.SAp ≠ .GAg ∧
    hidx (low .SAp).cfg [false] ≠ some (.entry [true]) ∧ hidx (low .SAp).cfg [false] = some (.entry [false]) ∧
    tkey (low .SAp).cfg [false] (histBits (low .SAp) (.entry [false])) ≠ some [true, true] :=
  ⟨rfl, by decide⟩

theorem witness_StepKeepsInvariant :
    (lowWith .SAs [present [false, false, false, true]]).Wf ∧
    (after (step (lowWith .SAs [present [false, false, false, true]]))).map State.resp =
      some (.prediction .notTaken) := by decide

theorem witness_NothingIsForgotten :
    step (lowWith .PAp [present [true, true, true, false]]) = .next (low .PAp) ∧
    (present [true, true, true, false]).rst = false ∧ tableGet (low .PAp).bank [true] ≠ none ∧
    tableGet (low .PAp).pht [true, true] ≠ none := ⟨rfl, by decide⟩

theorem witness_FixedWidthPortNeverFails :
    ∀ v ∈ variants, (lowWith v [present [true, true, true, false], ⟨true, true, bits [0, 0, 0, 1]⟩]).Good ∧
      portFits (lowWith v [present [true, true, true, false], ⟨true, true, bits [0, 0, 0, 1]⟩]) := by decide

theorem witness_StepIsTotal :
    ∀ s ∈ [lowWith .PAp [present (bits [1, 1, 0]), present (bits [1, 0, 0, 1])],
        { lowFailed .SAs with input := [present (bits [1, 0, 0, 1])] }],
      legal s.cfg = true ∧ (∀ e ∈ s.input, 3 ≤ e.cmd.length) := by decide

theorem witness_PredictionDependsOnSelectedEntry :
    (low .SAp).Good ∧ (st (cfg1 .SAp) [] [([false], [true]), ([true], [true])]
      [([false, true], [true]), ([true, true], [true])] [true]).Good ∧
    (low .SAp).cfg.variant = .SAp ∧ [true].length = (low .SAp).cfg.A ∧
    hidx (low .SAp).cfg [true] = some (.entry [true]) ∧
    histBits (low .SAp) (.entry [true]) = histBits (st (cfg1 .SAp) [] [([false], [true]), ([true], [true])]
      [([false, true], [true]), ([true, true], [true])] [true]) (.entry [true]) ∧
    tkey (low .SAp).cfg [true] (histBits (low .SAp) (.entry [true])) = some [true, true] ∧
    readOr 1 (low .SAp).pht [true, true] = readOr 1 [([false, true], [true]), ([true, true], [true])] [true, true] := by
  decide

/-- An instance in which address 0's register and entry are present and hold the default. -/
def lowPresent : State :=
  st (cfg1 .PAp) [] [([false], [false]), ([true], [true])] [([false, false], [false]), ([true, true], [true])] [true]

theorem witness_PresenceIsInvisible :
    (low .PAp).Wf ∧ lowPresent.Wf ∧ SameButPresence (low .PAp) lowPresent ∧
    (Instr.predictPAp [false]).wf (low .PAp).cfg = true ∧ (∀ v, Instr.predictPAp [false] ≠ monitorInstr v) := by
  refine ⟨by decide, by decide, ⟨rfl, rfl, rfl, rfl, fun i => ?_, fun k => ?_⟩, by decide,
    fun v => by cases v <;> decide⟩
  · by_cases h : i = [false] <;> by_cases h' : i = [true] <;> simp_all [readOr, tableGet, low, lowPresent, st, cfg1, zeros, State.fresh]
  · by_cases h : k = [false, false] <;> by_cases h' : k = [true, true] <;>
      simp_all [readOr, tableGet, low, lowPresent, st, cfg1, zeros, State.fresh]

theorem witness_PredictTwiceIsIdempotent :
    ∀ v ∈ variants, (low v).Good ∧ (low v).cfg.variant = v ∧ [false].length = (low v).cfg.A := by decide

theorem witness_OtherRegistersPairsUndisturbed :
    (low .SAs).Good ∧ (low .SAs).cfg.variant = .SAs ∧ [true].length = (low .SAs).cfg.A ∧
    hidx (low .SAs).cfg [false] = some (.entry [false]) ∧ hidx (low .SAs).cfg [true] ≠ some (.entry [false]) ∧
    hidx (low .SAs).cfg [true] = some (.entry [true]) := by decide

theorem witness_UpdateTrainsItsKey :
    (low .PAs).Good ∧ (low .PAs).cfg.variant = .PAs ∧ [true].length = (low .PAs).cfg.A ∧
    hidx (low .PAs).cfg [true] = some (.entry [true]) ∧
    tkey (low .PAs).cfg [true] (histBits (low .PAs) (.entry [true])) = some [true, true] ∧
    (after (exec (.updatePAs [true] .taken) (low .PAs))).map
      (fun t => tkey (low .PAs).cfg [true] (histBits t (.entry [true]))) =
      some (some [true, true]) := by decide

theorem witness_HistoryHoldsLatestOutcomes :
    (low .SAp).Good ∧
    (∀ o ∈ [(([true] : Bits), BranchResult.notTaken), ([false], .taken)], o.1.length = (low .SAp).cfg.A) ∧
    [false].length = (low .SAp).cfg.A ∧ hidx (low .SAp).cfg [false] = some (.entry [false]) := by decide

theorem witness_OutputSignals :
    (∀ v ∈ variants, (after (exec (predictInstr v [true]) (low v))).map State.resp = some (.prediction .taken)) ∧
    (∀ v ∈ variants, (after (exec (predictInstr v []) (low v))).map State.resp = some (.violation .addrWidth)) ∧
    (∀ v ∈ variants, (after (exec (updateInstr v [true] .taken) (low v))).map State.resp = some .none) ∧
    (∀ v ∈ variants, (after (exec (monitorInstr v) (low v))).map State.sc = some [false]) ∧
    (after (exec .nop (low .GAg))).map State.resp = some .none := by decide

theorem witness_FullWidthFoldIsPAp :
    ∀ v ∈ [Variant.PAs, .SAp, .SAs], (low v).Wf ∧ (low v).cfg.variant = v ∧ (low v).cfg.K = (low v).cfg.A := by decide

/-- The keys of `low` that begin with a 1 are those of `low .GAg` with that prefix. -/
theorem low_prefixed :
    ∀ h : Bits, h.length = 1 → tableGet (low .GAg).pht h = tableGet [([true, true], [true])] ([true] ++ h)
  | [b], _ => by cases b <;> rfl

theorem witness_SAsIsOneGAgPerSet :
    (low .SAs).Good ∧ (low .GAg).Good ∧ (low .GAg).cfg.H = (low .SAs).cfg.H ∧ (low .GAg).cfg.S = (low .SAs).cfg.S ∧
    [true].length = (low .SAs).cfg.K ∧ (low .GAg).bhr = readOr (low .SAs).cfg.H (low .SAs).bank [true] ∧
    (∀ h : Bits, h.length = (low .SAs).cfg.H → tableGet (low .GAg).pht h = tableGet (low .SAs).pht ([true] ++ h)) ∧
    hashFold [true] (low .SAs).cfg.K = some [true] ∧ hashFold [false] (low .SAs).cfg.K ≠ some [true] :=
  ⟨by decide, by decide, rfl, rfl, rfl, rfl, low_prefixed, by decide, by decide⟩

theorem witness_PApIsOneGAgPerAddress :
    (low .PAp).Good ∧ (low .GAg).Good ∧ (low .GAg).cfg.H = (low .PAp).cfg.H ∧ (low .GAg).cfg.S = (low .PAp).cfg.S ∧
    [true].length = (low .PAp).cfg.A ∧ (low .GAg).bhr = readOr (low .PAp).cfg.H (low .PAp).bank [true] ∧
    (∀ h : Bits, h.length = (low .PAp).cfg.H → tableGet (low .GAg).pht h = tableGet (low .PAp).pht ([true] ++ h)) ∧
    ([false] : Bits) ≠ [true] :=
  ⟨by decide, by decide, rfl, rfl, rfl, rfl, low_prefixed, by decide⟩

theorem witness_SingleAddressIsGAg :
    (low .SAp).Good ∧ (low .GAg).Good ∧ (low .GAg).cfg.H = (low .SAp).cfg.H ∧ (low .GAg).cfg.S = (low .SAp).cfg.S ∧
    [true].length = (low .SAp).cfg.A ∧ [false].length = (low .GAg).cfg.A ∧
    hidx (low .SAp).cfg [true] = some (.entry [true]) ∧ (low .GAg).bhr = histBits (low .SAp) (.entry [true]) ∧
    (∀ h key : Bits, h.length = (low .SAp).cfg.H → tkey (low .SAp).cfg [true] h = some key →
      tableGet (low .GAg).pht h = tableGet (low .SAp).pht key) :=
  ⟨by decide, by decide, rfl, rfl, rfl, rfl, by decide, by decide, fun h key hl hk => by
    cases (show some ([true] ++ h) = some key from hk); exact low_prefixed h hl⟩

end Sys2Proof.Tests
end

section
/-! Proofs of the statements of spec/00_scope.md: which construction requests are admitted, the values of vectors,
and what a step keeps. -/

namespace Sys2Proof.Machine

/-! ### Construction -/

/-- R57: the codes of the variants are exactly 0 to 4, each the code of one variant. -/
theorem variantOfCode_eq_some {code : BitVec 3} {v : Variant} :
    variantOfCode code = some v ↔ code = codeOfVariant v := by
  revert code
  cases v <;> decide

theorem codeOfVariant_lt_five (v : Variant) : (codeOfVariant v).toNat < 5 := by cases v <;> decide

theorem codeOfVariant_injective {v w : Variant} (h : codeOfVariant v = codeOfVariant w) : v = w :=
  Option.some.inj ((variantOfCode_eq_some.2 h).symm.trans (variantOfCode_eq_some.2 rfl)).symm

/-- R57, R58: the mode parameters that are admitted. -/
theorem modesAdmitted_iff {v : Variant} {p : Params} :
    modesAdmitted v p = true ↔ p.countMode = .saturating ∧
      (if hashes v then p.hashMode = some .xor else p.hashMode ≠ some .other) := by
  unfold modesAdmitted
  split <;> simp

/-- R5: the parameters of the instance of variant `v` that a request asks for, admitted or not. -/
def requestedConfig (v : Variant) (p : Params) : Config :=
  { variant := v, H := p.H, S := p.S, A := p.A, K := if hashes v then p.K.getD 0 else 0 }

/-- R6, R163: a request is admitted exactly when its code names a variant and the requested parameters are legal. -/
theorem admittedConfig_eq_some {p : Params} {cfg : Config} :
    admittedConfig p = some cfg ↔ ∃ v, p.variantCode = codeOfVariant v ∧ requestedConfig v p = cfg ∧
      legal (requestedConfig v p) = true ∧ modesAdmitted v p = true := by
  simp only [← variantOfCode_eq_some, admittedConfig]
  cases variantOfCode p.variantCode with
  | none => simp
  | some v => simp [requestedConfig, and_comm]

/-- R163, R180: an admitted request gives the construction state. -/
theorem construct_of_admitted {p : Params} {v : Variant} (hc : p.variantCode = codeOfVariant v)
    (hl : legal (requestedConfig v p) = true) (hm : modesAdmitted v p = true) :
    construct p = .ok (State.fresh (requestedConfig v p)) := by
  simp [construct, admittedConfig_eq_some.2 ⟨v, hc, rfl, hl, hm⟩]

/-- R163: a request no variant admits is refused with V3. -/
theorem construct_of_not_admitted {p : Params}
    (h : ∀ v, p.variantCode = codeOfVariant v → legal (requestedConfig v p) = true → modesAdmitted v p = true →
      False) : construct p = .error .configInvalid := by
  cases ha : admittedConfig p with
  | none => simp [construct, ha]
  | some cfg =>
    obtain ⟨v, hc, -, hl, hm⟩ := admittedConfig_eq_some.1 ha
    exact (h v hc hl hm).elim

/-- R6: a legal request of a variant that hashes gives XOR and a `K` of 1 to `A`. -/
theorem admitted_hash_parameters {v : Variant} {p : Params} (hv : hashes v = true)
    (hl : legal (requestedConfig v p) = true) (hm : modesAdmitted v p = true) :
    p.hashMode = some .xor ∧ ∃ k, p.K = some k ∧ 1 ≤ k ∧ k ≤ p.A := by
  obtain ⟨-, hx⟩ := modesAdmitted_iff.1 hm
  obtain ⟨-, hk⟩ := legal_iff.1 hl
  simp only [hv, requestedConfig, if_true] at hx hk
  cases h : p.K with
  | none => simp [h] at hk
  | some k => exact ⟨hx, k, rfl, by simpa [h] using hk⟩

/-- R58: no variant admits a hash mode other than XOR. -/
theorem admitted_hashMode_ne_other {v : Variant} {p : Params} (hm : modesAdmitted v p = true) :
    p.hashMode ≠ some .other := by
  obtain ⟨-, hx⟩ := modesAdmitted_iff.1 hm
  split at hx
  · simp [hx]
  · exact hx

/-- Settles O5: the admitted requests meet `legal` and `modesAdmitted`, and each ground of refusal contradicts one
of them. -/
theorem constructionAdmitsExactlyLegalParameters : Obligations.ConstructionAdmitsExactlyLegalParameters := by
  refine ⟨fun p v hc hH hS hA hcount hmode => ⟨fun hv => ?plain, fun hv hxor k hK h1 hkA => ?hashed⟩,
    fun p h => construct_of_not_admitted fun v hc hl hm => ?refused⟩
  case plain =>
    have hh : hashes v = false := by rcases hv with rfl | rfl <;> rfl
    have hcfg : requestedConfig v p = ⟨v, p.H, p.S, p.A, 0⟩ := by simp [requestedConfig, hh]
    rw [← hcfg]
    refine construct_of_admitted hc ?_ (modesAdmitted_iff.2 ⟨hcount, by simpa [hh] using hmode⟩)
    exact hcfg ▸ legal_iff.2 ⟨⟨hH, hS, hA⟩, by simp [hh]⟩
  case hashed =>
    have hh : hashes v = true := by rcases hv with rfl | rfl | rfl <;> rfl
    have hcfg : requestedConfig v p = ⟨v, p.H, p.S, p.A, k⟩ := by simp [requestedConfig, hh, hK]
    rw [← hcfg]
    refine construct_of_admitted hc ?_ (modesAdmitted_iff.2 ⟨hcount, by simpa [hh] using hxor⟩)
    exact hcfg ▸ legal_iff.2 ⟨⟨hH, hS, hA⟩, by simp [hh, h1, hkA]⟩
  case refused =>
    obtain ⟨⟨hH, hS, hA⟩, -⟩ := legal_iff.1 hl
    simp only [requestedConfig] at hH hS hA
    rcases h with hcode | hH0 | hS0 | hA0 | hcount | hmode | ⟨hcode, hbad⟩
    · have := codeOfVariant_lt_five v
      rw [← hc] at this
      omega
    · omega
    · omega
    · omega
    · exact hcount (modesAdmitted_iff.1 hm).1
    · exact admitted_hashMode_ne_other hm hmode
    · have hh : hashes v = true := by
        rw [hc] at hcode
        rcases hcode with hcode | hcode | hcode <;> (rw [codeOfVariant_injective hcode]; rfl)
      obtain ⟨hxor, k, hK, h1, hkA⟩ := admitted_hash_parameters hh hl hm
      rcases hbad with hx | hnone | hzero | ⟨k', hK', hbig⟩
      · exact hx hxor
      · simp [hK] at hnone
      · obtain rfl : k = 0 := by simpa [hK] using hzero
        omega
      · obtain rfl : k = k' := by simpa [hK] using hK'
        omega

/-! ### Vectors -/

/-- Settles O13, from the laws of `val` and `vec`. -/
theorem vectorValues : Obligations.VectorValues :=
  ⟨fun v => ⟨val_lt v, vec_val v⟩, fun n m h => ⟨val_vec h, vec_length n m⟩, val_append,
    fun n => ⟨val_zeros n, zeros_length n⟩⟩

/-! ### What a step keeps -/

/-- R87: a write removes no entry. -/
theorem tableGet_put_ne_none {t : Table} {k' : Bits} (k v : Bits) (h : tableGet t k' ≠ none) :
    tableGet (tablePut t k v) k' ≠ none := by
  rw [tableGet_put]
  split
  · simp
  · exact h

/-- R88: adding a default removes no entry. -/
theorem tableGet_putIfAbsent_ne_none {t : Table} {k' : Bits} (k d : Bits) (h : tableGet t k' ≠ none) :
    tableGet (tablePutIfAbsent t k d) k' ≠ none := by
  rw [tableGet_putIfAbsent]
  split
  · simp
  · exact h

/-- R18.2, R183: `t` has the parameters of `s` and every register and entry that is present in `s`. -/
structure Retains (s t : State) : Prop where
  cfg : t.cfg = s.cfg
  bank : ∀ i, tableGet s.bank i ≠ none → tableGet t.bank i ≠ none
  pht : ∀ k, tableGet s.pht k ≠ none → tableGet t.pht k ≠ none

theorem Retains.refl (s : State) : Retains s s := ⟨rfl, fun _ h => h, fun _ h => h⟩

/-- The response is neither a register nor an entry. -/
theorem Retains.setResp {s t : State} (h : Retains s t) (r : Response) : Retains s (t.setResp r) :=
  ⟨h.cfg, h.bank, h.pht⟩

/-- What the caller will present is neither a register nor an entry. -/
theorem Retains.of_setInput {s t : State} {later : List ClockEdge} (h : Retains (s.setInput later) t) : Retains s t :=
  ⟨h.cfg, h.bank, h.pht⟩

/-- R164: a violation removes nothing. -/
theorem retains_raise (c : ViolationCode) (s : State) : Retains s (raise c s) :=
  have h : Retains s (s.setFailed true) := ⟨rfl, fun _ h => h, fun _ h => h⟩
  h.setResp (.violation c)

/-- R124: PREDICT only adds a register and an entry. -/
theorem retains_predicted (s : State) (i : HistIndex) (key : Bits) : Retains s (predicted s i key) where
  cfg := predicted_cfg s i key
  bank j h := by
    cases i with
    | global => exact h
    | entry x => exact tableGet_putIfAbsent_ne_none x _ h
  pht _ h := tableGet_putIfAbsent_ne_none key _ h

/-- R125: UPDATE only writes a register and an entry. -/
theorem retains_updated (s : State) (i : HistIndex) (key : Bits) (actual : BranchResult) :
    Retains s (updated s i key actual) where
  cfg := updated_cfg s i key actual
  bank j h := by
    cases i with
    | global => exact h
    | entry x => exact tableGet_put_ne_none x _ h
  pht k h := by
    rw [updated_pht]
    exact tableGet_put_ne_none key _ h

/-- R18.2: no operation changes the parameters or removes a register or an entry. -/
theorem exec_retains {i : Instr} {s t : State} (h : exec i s = .next t) : Retains s t := by
  rcases exec_eq_next h with ⟨r, -, rfl⟩ | ⟨c, rfl⟩ | ⟨x, key, r, -, -, rfl⟩ | ⟨x, key, actual, -, -, -, rfl⟩
  · exact (Retains.refl s).setResp r
  · exact retains_raise c s
  · exact (retains_predicted s x key).setResp (.prediction r)
  · exact (retains_updated s x key actual).setResp .none

/-- R181, R183: a step is a reset, which keeps the parameters, or removes nothing. -/
theorem step_retains {s t : State} (h : step s = .next t) :
    (∃ edge later, s.input = edge :: later ∧ edge.rst = true ∧ t.cfg = s.cfg) ∨ Retains s t := by
  rcases step_eq_next h with ⟨-, rfl⟩ | ⟨edge, later, hin, ⟨hr, rfl⟩ | ⟨-, -, rfl⟩ | ⟨-, -, i, -, hx⟩⟩
  · exact .inr ((Retains.refl s).setResp .none)
  · exact .inl ⟨edge, later, hin, hr, rfl⟩
  · exact .inr ((Retains.refl (s.setInput later)).setResp .none).of_setInput
  · exact .inr (exec_retains hx).of_setInput

/-- Settles O47, by the cases of one step. -/
theorem nothingIsForgotten : Obligations.NothingIsForgotten := by
  intro s t h
  rcases step_retains h with ⟨edge, later, hin, hr, hcfg⟩ | ⟨hcfg, hbank, hpht⟩
  · refine ⟨hcfg, fun hno => ?_⟩
    simp [hno edge later hin] at hr
  · exact ⟨hcfg, fun _ => ⟨hbank, hpht⟩⟩

end Sys2Proof.Machine
end

section
/-! Proofs of the statements of spec/10_state.md: the values and the invariant at reset, what an operation keeps, when
`FAILED` rises, what a prediction depends on, and what a history register holds. -/

namespace Sys2Proof.Machine

/-! ### What an operation of one variant answers -/

/-- R124, R164: what PREDICT leaves where it answers: its effect on what it selects, or a violation. -/
theorem exec_predictInstr_eq_next {v : Variant} {addr : Bits} {s t : State}
    (h : exec (predictInstr v addr) s = .next t) :
    (∃ c, t = raise c s) ∨
      ∃ x key, Selects s addr x key ∧
        t = (predicted s x key).setResp (.prediction (predictionOf (readOr s.cfg.S s.pht key))) := by
  rw [exec_predictInstr, onVariant_eq_next, finish_eq_next] at h
  obtain ⟨-, -, ⟨s', r, hp, rfl⟩ | ⟨c, -, rfl⟩⟩ := h
  · obtain ⟨x, key, hs, -, rfl, rfl⟩ := predict_eq_ok.1 hp
    exact .inr ⟨x, key, hs, rfl⟩
  · exact .inl ⟨c, rfl⟩

/-- R125, R164: what UPDATE leaves where it answers: its effect on what it selects, or a violation. -/
theorem exec_updateInstr_eq_next {v : Variant} {addr : Bits} {actual : BranchResult} {s t : State}
    (h : exec (updateInstr v addr actual) s = .next t) :
    s.cfg.variant = v ∧ ((∃ c, t = raise c s) ∨
      ∃ x key, Selects s addr x key ∧ t = (updated s x key actual).setResp .none) := by
  rw [exec_updateInstr, onVariant_eq_next, finish_eq_next] at h
  obtain ⟨-, hv, ⟨s', r, hu, rfl⟩ | ⟨c, -, rfl⟩⟩ := h
  · obtain ⟨x, key, hs, -, -, rfl, rfl⟩ := update_eq_ok.1 hu
    exact ⟨hv, .inr ⟨x, key, hs, rfl⟩⟩
  · exact ⟨hv, .inl ⟨c, rfl⟩⟩

/-- R126: MONITOR changes the response only, whatever the value of `FAILED`. -/
theorem exec_monitorInstr_eq_next {v : Variant} {s t : State} (h : exec (monitorInstr v) s = .next t) :
    t = s.setResp (.snapshot (snapshotOf s)) := by
  rw [exec_monitorInstr, onVariant_eq_next, monitor] at h
  obtain ⟨-, -, hf⟩ := h
  simpa [finish] using hf.symm

/-- R127: NOP answers in every state. -/
@[simp] theorem exec_nop (s : State) : exec .nop s = .next (s.setResp .none) := rfl

/-! ### Construction and reset -/

/-- Settles O3: `State.fresh` holds the values of R19, and an empty table reads as ABSENT at every key. -/
theorem resetStateValues : Obligations.ResetStateValues := by
  refine ⟨fun cfg => ⟨fun hv => ?_, fun _ => rfl, fun _ => rfl, rfl, rfl, rfl⟩, rfl⟩
  simp [bhrWidth, hv]

/-- R18, R19: the construction state of an admitted instance meets the invariant. -/
theorem fresh_good {cfg : Config} (hl : legal cfg = true) : (State.fresh cfg).Good :=
  ⟨⟨hl, zeros_length _, ⟨.nil, by simp⟩, ⟨.nil, by simp⟩, zeros_length _⟩, rfl⟩

/-- Settles O4: the construction state is Good, and the parameters of `State.reset` are admitted. -/
theorem resetStateMeetsInvariant : Obligations.ResetStateMeetsInvariant :=
  ⟨fun _ hl => fresh_good hl, fresh_good (by decide)⟩

/-! ### Every step keeps the invariant -/

/-- The new entry of a table has the widths that hold of the entries already there. -/
theorem putIfAbsent_keeps_entries {P : Bits × Bits → Prop} {t : Table} {k d : Bits} (ht : ∀ e ∈ t, P e)
    (hk : P (k, d)) : ∀ e ∈ tablePutIfAbsent t k d, P e := fun e he => by
  rcases mem_tablePutIfAbsent he with rfl | he
  · exact hk
  · exact ht e he

theorem put_keeps_entries {P : Bits × Bits → Prop} {t : Table} {k v : Bits} (ht : ∀ e ∈ t, P e)
    (hk : P (k, v)) : ∀ e ∈ tablePut t k v, P e := fun e he => by
  rcases mem_tablePut he with rfl | he
  · exact hk
  · exact ht e he

/-- R124: PREDICT keeps the invariant. -/
theorem predicted_wf {s : State} {addr key : Bits} {i : HistIndex} (hw : s.Wf) (hs : Selects s addr i key)
    (hc : (readOr s.cfg.S s.pht key).length = s.cfg.S) : (predicted s i key).Wf := by
  obtain ⟨hl, hb, hbank, -, -⟩ := touchHist_wf hw hs.indexFits
  obtain ⟨-, -, -, ⟨hm, he⟩, -⟩ := hw
  refine ⟨hl, hb, hbank, ⟨tablePutIfAbsent_keeps_wf _ _ hm, ?_⟩, ?_⟩ <;> rw [predicted_cfg]
  · exact putIfAbsent_keeps_entries he ⟨hs.keyFits, zeros_length _⟩
  · exact hc

/-- R125: UPDATE keeps the invariant. -/
theorem updated_wf {s : State} {addr key : Bits} {i : HistIndex} (actual : BranchResult) (hw : s.Wf)
    (hs : Selects s addr i key) (hc : (readOr s.cfg.S s.pht key).length = s.cfg.S)
    (hh : ∀ j, i = .entry j → (histBits s i).length = s.cfg.H) : (updated s i key actual).Wf := by
  obtain ⟨hl, hb, ⟨hmb, heb⟩, ⟨hmp, hep⟩, hsc⟩ := hw
  have hpht : Memory.wf (updated s i key actual).pht ∧
      ∀ e ∈ (updated s i key actual).pht, e.1.length = keyWidth s.cfg ∧ e.2.length = s.cfg.S := by
    rw [updated_pht]
    exact ⟨tablePut_keeps_wf _ _ hmp, put_keeps_entries hep ⟨hs.keyFits, by simpa using hc⟩⟩
  cases i with
  | global => exact ⟨hl, by simpa [updated] using hb, ⟨hmb, heb⟩, hpht, hsc⟩
  | entry j =>
    refine ⟨hl, hb, ⟨tablePut_keeps_wf _ _ hmb, put_keeps_entries heb ⟨hs.indexFits j rfl, ?_⟩⟩, hpht, hsc⟩
    simpa [histBits] using hh j rfl

/-- R18: every operation keeps the invariant, a violation included. -/
theorem exec_keeps_wf {i : Instr} {s t : State} (hw : s.Wf) (h : exec i s = .next t) : t.Wf := by
  rcases exec_eq_next h with ⟨r, -, rfl⟩ | ⟨c, rfl⟩ | ⟨x, key, r, ⟨v, addr, -, hs⟩, hc, rfl⟩ |
    ⟨x, key, actual, ⟨v, addr, -, hs⟩, hc, hh, rfl⟩
  · exact hw
  · exact hw
  · exact predicted_wf hw hs hc
  · exact updated_wf actual hw hs hc hh

/-- Settles O46, by the cases of one step: reset leaves the construction state, an operation keeps the invariant, and
any other edge changes no register and no table. -/
theorem stepKeepsInvariant : Obligations.StepKeepsInvariant := by
  intro s t hw h
  rcases step_eq_next h with ⟨-, rfl⟩ | ⟨edge, later, -, ⟨-, rfl⟩ | ⟨-, -, rfl⟩ | ⟨-, -, i, -, hx⟩⟩
  · exact hw
  · exact (fresh_good hw.1).1
  · exact hw
  · exact exec_keeps_wf (s := s.setInput later) hw hx

/-! ### When FAILED rises -/

/-- R17, R164: after an operation `FAILED` is 1 exactly when it was 1 before or the response is a violation. -/
theorem exec_failed_iff {i : Instr} {s t : State} (h : exec i s = .next t) :
    t.failed = true ↔ s.failed = true ∨ isViolation t.resp = true := by
  rcases exec_eq_next h with ⟨r, hr, rfl⟩ | ⟨c, rfl⟩ | ⟨x, key, r, -, -, rfl⟩ | ⟨x, key, actual, -, -, -, rfl⟩
  · have : isViolation r = false := by cases r <;> simp_all [isViolation]
    simp [this]
  · simp [raise, isViolation]
  · simp [isViolation]
  · simp [isViolation]

/-- Settles O41: of the four things an operation can have done only raising a violation responds with one. -/
theorem violationSetsOnlyFailureFlag : Obligations.ViolationSetsOnlyFailureFlag := by
  refine ⟨fun i s t code h hresp => ?_, fun i s t h => exec_failed_iff h⟩
  rcases exec_eq_next h with ⟨r, hr, rfl⟩ | ⟨c, rfl⟩ | ⟨x, key, r, -, -, rfl⟩ | ⟨x, key, actual, -, -, -, rfl⟩
  · exact absurd hresp (hr code)
  · obtain rfl : c = code := by simpa [raise] using hresp
    rfl
  · simp at hresp
  · simp at hresp

/-- R17, R184: a step at an edge without reset raises `FAILED` exactly where it responds with a violation. -/
theorem step_failed_iff {s t : State} {edge : ClockEdge} (hr : edge.rst = false)
    (h : step (s.setInput [edge]) = .next t) : t.failed = true ↔ s.failed = true ∨ isViolation t.resp = true := by
  rcases step_eq_next h with ⟨hin, -⟩ | ⟨e, later, hin, hcase⟩
  · simp at hin
  · obtain ⟨rfl, rfl⟩ : edge = e ∧ [] = later := by simpa using hin
    rcases hcase with ⟨hrst, -⟩ | ⟨-, -, rfl⟩ | ⟨-, -, i, -, hx⟩
    · simp [hr] at hrst
    · simp [isViolation]
    · simpa using exec_failed_iff hx

/-- R184: a run over one edge more. -/
theorem runEdges_cons_eq_some {edge : ClockEdge} {later : List ClockEdge} {s t : State} {rs : List Response} :
    runEdges (edge :: later) s = some (rs, t) ↔
      ∃ s' rs', step (s.setInput [edge]) = .next s' ∧ runEdges later s' = some (rs', t) ∧ rs = s'.resp :: rs' := by
  rw [runEdges]
  cases step (s.setInput [edge]) <;> simp [eq_comm, and_comm]

/-- R184: a run without reset has one response per edge, and it ends with `FAILED = 1` exactly when it began so or
some response is a violation. -/
theorem runEdges_failed_iff {edges : List ClockEdge} {s t : State} {rs : List Response}
    (hr : ∀ e ∈ edges, e.rst = false) (h : runEdges edges s = some (rs, t)) :
    rs.length = edges.length ∧ (t.failed = true ↔ s.failed = true ∨ ∃ r ∈ rs, isViolation r = true) := by
  induction edges generalizing s rs with
  | nil => cases h; simp
  | cons edge later ih =>
    obtain ⟨s', rs', hstep, hrun, rfl⟩ := runEdges_cons_eq_some.1 h
    obtain ⟨hedge, hlater⟩ := List.forall_mem_cons.1 hr
    obtain ⟨hlen, hfail⟩ := ih hlater hrun
    exact ⟨by simp [hlen], by rw [hfail, step_failed_iff hedge hstep, or_assoc, List.exists_mem_cons_iff]⟩

/-- Settles O43, from the run that begins with `FAILED = 0`. -/
theorem failedRunsHaveAViolation : Obligations.FailedRunsHaveAViolation := by
  intro edges s t rs hr hf h
  simpa [hf] using runEdges_failed_iff hr h

/-! ### A port of fixed width -/

/-- R120: a step at an edge that presents a command runs the decoded operation. -/
theorem step_of_command {s : State} {edge : ClockEdge} {later : List ClockEdge} {i : Instr}
    (hin : s.input = edge :: later) (hr : edge.rst = false) (hv : edge.cmdValid = true)
    (hd : decode s.cfg edge.cmd = .ok i) : step s = exec i (s.setInput later) := by
  simp [step, hin, hr, hv, hd]

/-- R181: a reset edge leaves the construction state. -/
theorem step_of_reset {s : State} {edge : ClockEdge} {later : List ClockEdge}
    (hin : s.input = edge :: later) (hr : edge.rst = true) :
    step s = .next (resetInstance (s.setInput later)) := by
  simp [step, hin, hr]

/-- R55: an edge without a command changes nothing. -/
theorem step_of_idle_edge {s : State} {edge : ClockEdge} {later : List ClockEdge}
    (hin : s.input = edge :: later) (hr : edge.rst = false) (hv : edge.cmdValid = false) :
    step s = .next ((s.setInput later).setResp .none) := by
  simp [step, hin, hr, hv]

theorem step_of_no_edge {s : State} (hin : s.input = []) : step s = .next (s.setResp .none) := by
  simp [step, hin]

/-- R64: PREDICT, UPDATE and MONITOR of an instance's variant, on an address of its width, are operations of it. -/
theorem wf_predictInstr {cfg : Config} {addr : Bits} (ha : addr.length = cfg.A) :
    (predictInstr cfg.variant addr).wf cfg = true := by
  cases hv : cfg.variant <;> simp [predictInstr, Instr.wf, ofVariant, addrFits, hv, ha]

theorem wf_updateInstr {cfg : Config} {addr : Bits} (actual : BranchResult) (ha : addr.length = cfg.A) :
    (updateInstr cfg.variant addr actual).wf cfg = true := by
  cases hv : cfg.variant <;> simp [updateInstr, Instr.wf, ofVariant, addrFits, hv, ha]

theorem wf_monitorInstr (cfg : Config) : (monitorInstr cfg.variant).wf cfg = true := by
  cases hv : cfg.variant <;> simp [monitorInstr, Instr.wf, ofVariant, hv]

/-- R54, R60: a command word of `A + 3` bits carries an operation of the instance. -/
theorem decode_wf_of_length {cfg : Config} {cmd : Bits} (h : cmd.length = cfg.A + 3) :
    ∃ i, decode cfg cmd = .ok i ∧ i.wf cfg = true := by
  obtain ⟨addr, actual, op1, op0, rfl, ha⟩ := cmdWord_exists h
  refine ⟨_, decode_cmdWord .., ?_⟩
  match op1, op0 with
  | false, false => rfl
  | false, true => exact wf_predictInstr ha
  | true, false => exact wf_updateInstr _ ha
  | true, true => exact wf_monitorInstr cfg

/-- No operation takes anything from what the caller will present. -/
theorem exec_input {i : Instr} {s t : State} (h : exec i s = .next t) : t.input = s.input := by
  rcases exec_eq_next h with ⟨r, -, rfl⟩ | ⟨c, rfl⟩ | ⟨x, key, r, -, -, rfl⟩ | ⟨x, key, actual, -, -, -, rfl⟩
  · rfl
  · rfl
  · exact predicted_input s x key
  · exact updated_input s x key actual

/-- R17, R161: on a Good state every operation of the instance answers, and with no violation. -/
theorem exec_answers {s : State} {i : Instr} (hg : s.Good) (hi : i.wf s.cfg = true) :
    ∃ t, exec i s = .next t ∧ isViolation t.resp = false := by
  obtain ⟨hw, hf⟩ := hg
  rcases wf_cases hi with rfl | ⟨addr, ha, rfl⟩ | ⟨addr, actual, ha, rfl⟩ | rfl
  · exact ⟨_, exec_nop s, rfl⟩
  · obtain ⟨x, key, hs, -⟩ := selects_exists hw hf ha
    exact ⟨_, exec_predict_next hw hs, rfl⟩
  · obtain ⟨x, key, hs, -⟩ := selects_exists hw hf ha
    exact ⟨_, exec_update_next actual hw hs, rfl⟩
  · exact ⟨_, exec_monitor_next hw.1, rfl⟩

/-- R165: an operation without violation leads from a Good state to a Good state. -/
theorem exec_keeps_good {i : Instr} {s t : State} (hg : s.Good) (h : exec i s = .next t)
    (hv : isViolation t.resp = false) : t.Good :=
  ⟨exec_keeps_wf hg.1 h, by simpa [hg.2, hv] using exec_failed_iff h⟩

/-- Settles O48: every form of edge answers, and a word of the port's width carries an operation, which on a Good
state raises nothing. -/
theorem fixedWidthPortNeverFails : Obligations.FixedWidthPortNeverFails := by
  intro s hg hp
  cases hin : s.input with
  | nil => exact ⟨_, step_of_no_edge hin, hg, hp, rfl⟩
  | cons edge later =>
    rw [portFits, hin] at hp
    obtain ⟨hedge, hlater⟩ := List.forall_mem_cons.1 hp
    cases hr : edge.rst with
    | true => exact ⟨_, step_of_reset hin hr, fresh_good hg.1.1, hlater, rfl⟩
    | false =>
      cases hv : edge.cmdValid with
      | false => exact ⟨_, step_of_idle_edge hin hr hv, hg, hlater, rfl⟩
      | true =>
        obtain ⟨i, hd, hi⟩ := decode_wf_of_length hedge
        obtain ⟨t, hx, hviol⟩ := exec_answers (s := s.setInput later) hg hi
        refine ⟨t, by rw [step_of_command hin hr hv hd, hx], exec_keeps_good (s := s.setInput later) hg hx hviol,
          ?_, hviol⟩
        rw [portFits, exec_input hx, (exec_retains hx).cfg]
        exact hlater

/-! ### Presence -/

/-- R23: states that differ in presence only hold the same history bits. -/
theorem SameButPresence.histBits_eq {s t : State} (h : SameButPresence s t) (i : HistIndex) :
    histBits s i = histBits t i := by
  obtain ⟨-, hbhr, -, -, hbank, -⟩ := h
  cases i with
  | global => exact hbhr
  | entry j => exact hbank j

/-- R23: states that differ in presence only select the same entries. -/
theorem SameButPresence.selects {s t : State} {addr key : Bits} {i : HistIndex} (h : SameButPresence s t)
    (hs : Selects s addr i key) : Selects t addr i key := by
  have hh := h.histBits_eq i
  obtain ⟨hcfg, -, hf, -⟩ := h
  obtain ⟨husable, hfits, hindex, hix, hkey, hkl⟩ := hs
  rw [hh] at hkey
  rw [hcfg] at hfits hindex hix hkey hkl
  exact ⟨hf ▸ husable, hfits, hindex, hix, hkey, hkl⟩

theorem SameButPresence.setResp {s t : State} (h : SameButPresence s t) (r r' : Response) :
    SameButPresence (s.setResp r) (t.setResp r') := h

/-- R164: a violation sets the same flag in both. -/
theorem SameButPresence.raise {s t : State} (h : SameButPresence s t) (c : ViolationCode) :
    SameButPresence (raise c s) (raise c t) := by
  obtain ⟨hcfg, hbhr, -, hin, hbank, hpht⟩ := h
  exact ⟨hcfg, hbhr, rfl, hin, hbank, hpht⟩

/-- R23, R128: PREDICT changes nothing but presence and the working register. -/
theorem sameButPresence_predicted (s : State) (i : HistIndex) (key : Bits) :
    SameButPresence (predicted s i key) s := by
  refine ⟨?_, ?_, ?_, ?_, fun j => ?_, fun k => ?_⟩
  · exact predicted_cfg s i key
  · exact predicted_bhr s i key
  · exact predicted_failed s i key
  · exact predicted_input s i key
  · exact histBits_predicted s i (.entry j) key
  · rw [predicted_cfg, predicted_pht, readOr_putIfAbsent]

theorem SameButPresence.symm {s t : State} (h : SameButPresence s t) : SameButPresence t s := by
  obtain ⟨hcfg, hbhr, hf, hin, hbank, hpht⟩ := h
  exact ⟨hcfg.symm, hbhr.symm, hf.symm, hin.symm, fun i => (hbank i).symm, fun k => (hpht k).symm⟩

theorem SameButPresence.trans {s t u : State} (h : SameButPresence s t) (h' : SameButPresence t u) :
    SameButPresence s u := by
  obtain ⟨hcfg, hbhr, hf, hin, hbank, hpht⟩ := h
  obtain ⟨hcfg', hbhr', hf', hin', hbank', hpht'⟩ := h'
  exact ⟨hcfg.trans hcfg', hbhr.trans hbhr', hf.trans hf', hin.trans hin', fun i => (hbank i).trans (hbank' i),
    fun k => (hpht k).trans (hpht' k)⟩

/-- R124: PREDICT adds presence to each of the two and keeps them alike. -/
theorem SameButPresence.predicted {s t : State} (h : SameButPresence s t) (i : HistIndex) (key : Bits) :
    SameButPresence (predicted s i key) (predicted t i key) :=
  (sameButPresence_predicted s i key).trans (h.trans (sameButPresence_predicted t i key).symm)

/-- R125: UPDATE writes the same register and the same entry with the same values in both. -/
theorem SameButPresence.updated {s t : State} (h : SameButPresence s t) (i : HistIndex) (key : Bits)
    (actual : BranchResult) : SameButPresence (updated s i key actual) (updated t i key actual) := by
  have hhist : ∀ j, histBits (Machine.updated s i key actual) j = histBits (Machine.updated t i key actual) j := by
    intro j
    rw [histBits_updated, histBits_updated, h.histBits_eq i, h.histBits_eq j]
  obtain ⟨hcfg, hbhr, hf, hin, hbank, hpht⟩ := h
  refine ⟨by simpa using hcfg, hhist .global, by simpa using hf, by simpa using hin, fun j => hhist (.entry j),
    fun k => ?_⟩
  simp only [updated_cfg, updated_pht, readOr_put, hpht]

/-- R165: a failed instance refuses PREDICT with V0. -/
theorem exec_predict_failed {s : State} (addr : Bits) (hl : legal s.cfg = true) (hf : s.failed = true) :
    exec (predictInstr s.cfg.variant addr) s = .next (raise .failedEarlier s) := by
  rw [exec_predictInstr, onVariant_run hl rfl, predict_failed addr hf]; rfl

/-- R165: a failed instance refuses UPDATE with V0. -/
theorem exec_update_failed {s : State} (addr : Bits) (actual : BranchResult) (hl : legal s.cfg = true)
    (hf : s.failed = true) :
    exec (updateInstr s.cfg.variant addr actual) s = .next (raise .failedEarlier s) := by
  rw [exec_updateInstr, onVariant_run hl rfl, update_failed addr actual hf]; rfl

/-- R23: PREDICT answers alike in states that differ in presence only. -/
theorem SameButPresence.exec_predict {s t : State} {addr : Bits} (h : SameButPresence s t) (hs : s.Wf) (ht : t.Wf)
    (ha : addr.length = s.cfg.A) :
    ∃ u w, exec (predictInstr s.cfg.variant addr) s = .next u ∧
      exec (predictInstr t.cfg.variant addr) t = .next w ∧ SameButPresence u w ∧ u.resp = w.resp := by
  have ⟨_, _, hf, _, _, hpht⟩ := h
  cases hfs : s.failed with
  | true =>
    exact ⟨_, _, exec_predict_failed addr hs.1 hfs, exec_predict_failed addr ht.1 (hf ▸ hfs), h.raise _, rfl⟩
  | false =>
    obtain ⟨x, key, hsel, -⟩ := selects_exists hs hfs ha
    exact ⟨_, _, exec_predict_next hs hsel, exec_predict_next ht (h.selects hsel), (h.predicted x key).setResp _ _,
      by simp [hpht]⟩

/-- R23: UPDATE answers alike in states that differ in presence only. -/
theorem SameButPresence.exec_update {s t : State} {addr : Bits} (h : SameButPresence s t) (hs : s.Wf) (ht : t.Wf)
    (actual : BranchResult) (ha : addr.length = s.cfg.A) :
    ∃ u w, exec (updateInstr s.cfg.variant addr actual) s = .next u ∧
      exec (updateInstr t.cfg.variant addr actual) t = .next w ∧ SameButPresence u w ∧ u.resp = w.resp := by
  have ⟨_, _, hf, _⟩ := h
  cases hfs : s.failed with
  | true =>
    exact ⟨_, _, exec_update_failed addr actual hs.1 hfs, exec_update_failed addr actual ht.1 (hf ▸ hfs), h.raise _,
      rfl⟩
  | false =>
    obtain ⟨x, key, hsel, -⟩ := selects_exists hs hfs ha
    exact ⟨_, _, exec_update_next actual hs hsel, exec_update_next actual ht (h.selects hsel),
      (h.updated x key actual).setResp _ _, rfl⟩

/-- Settles O51, by the operations of the instance. A failed pair refuses alike; a usable pair selects the same
register and entry, whose contents read alike. -/
theorem presenceIsInvisible : Obligations.PresenceIsInvisible := by
  intro s t i hs ht h hi
  have hvar : t.cfg.variant = s.cfg.variant := congrArg Config.variant h.1.symm
  rcases wf_cases hi with rfl | ⟨addr, ha, rfl⟩ | ⟨addr, actual, ha, rfl⟩ | rfl
  · exact ⟨_, _, exec_nop s, exec_nop t, h, fun _ => rfl⟩
  · obtain ⟨u, w, hu, hw, hsame, hresp⟩ := h.exec_predict hs ht ha
    exact ⟨u, w, hu, hvar ▸ hw, hsame, fun _ => hresp⟩
  · obtain ⟨u, w, hu, hw, hsame, hresp⟩ := h.exec_update hs ht actual ha
    exact ⟨u, w, hu, hvar ▸ hw, hsame, fun _ => hresp⟩
  · have hw := exec_monitor_next ht.1
    rw [hvar] at hw
    exact ⟨_, _, exec_monitor_next hs.1, hw, h, fun hno => absurd rfl (hno _)⟩

/-! ### The latest outcomes -/

/-- R76: `n` insertions push the oldest `n` bits out and append the new ones. -/
theorem foldl_shiftInsert (r bs : Bits) : bs.foldl shiftInsert r = (r ++ bs).drop bs.length := by
  induction bs generalizing r with
  | nil => simp
  | cons b bs ih =>
    rw [List.foldl_cons, ih]
    cases r with
    | nil => simp [shiftInsert]
    | cons a rest => simp [shiftInsert]

/-- R13, R14: the outcomes of those UPDATEs of a list whose history register is the one of index `i`, in order. -/
def outcomesFor (cfg : Config) (i : HistIndex) (ops : List (Bits × BranchResult)) : List Bit :=
  (ops.filter fun o => decide (hidx cfg o.1 = some i)).map fun o => bitOf o.2

theorem outcomesFor_cons (cfg : Config) (i : HistIndex) (o : Bits × BranchResult) (ops : List (Bits × BranchResult)) :
    outcomesFor cfg i (o :: ops) =
      if hidx cfg o.1 = some i then bitOf o.2 :: outcomesFor cfg i ops else outcomesFor cfg i ops := by
  unfold outcomesFor
  split <;> simp [*]

@[simp] theorem histBits_setInput (s : State) (l : List ClockEdge) (i : HistIndex) :
    histBits (s.setInput l) i = histBits s i := by cases i <;> rfl

@[simp] theorem histBits_setResp (s : State) (r : Response) (i : HistIndex) :
    histBits (s.setResp r) i = histBits s i := by cases i <;> rfl

/-- R54: a step at an edge that presents the command word of an UPDATE runs that UPDATE. -/
theorem step_present_update (s : State) (addr : Bits) (actual : BranchResult) :
    step (s.setInput [present (encodeUpdate addr actual)]) =
      exec (updateInstr s.cfg.variant addr actual) (s.setInput []) := by
  refine step_of_command (i := updateInstr s.cfg.variant addr actual) rfl rfl rfl ?_
  simp [present, encodeUpdate, selectRow]

/-- R13, R14, R125: an UPDATE presented to a Good instance leaves it Good, with the outcome shifted into the history
register it selects and into no other. -/
theorem step_update_history {s : State} {addr : Bits} (actual : BranchResult) (hg : s.Good)
    (ha : addr.length = s.cfg.A) :
    ∃ t, step (s.setInput [present (encodeUpdate addr actual)]) = .next t ∧ t.Good ∧ t.cfg = s.cfg ∧
      ∀ i, histBits t i =
        if hidx s.cfg addr = some i then shiftInsert (histBits s i) (bitOf actual) else histBits s i := by
  have hg' : (s.setInput []).Good := hg
  obtain ⟨x, key, hs, -⟩ := selects_exists hg'.1 hg'.2 ha
  have hx := exec_update_next actual hg'.1 hs
  refine ⟨_, (step_present_update s addr actual).trans hx, exec_keeps_good hg' hx rfl, (exec_retains hx).cfg,
    fun i => ?_⟩
  have hindex : hidx s.cfg addr = some x := hs.index
  rw [histBits_setResp, histBits_updated, histBits_setInput, histBits_setInput, hindex]
  by_cases hi : i = x
  · simp [hi]
  · simp [hi, Ne.symm hi]

/-- R13, R14: a run of UPDATEs from a Good state answers, and shifts into every history register the outcomes of the
UPDATEs that select it. -/
theorem runEdges_updates_history (ops : List (Bits × BranchResult)) {s : State} (hg : s.Good)
    (ha : ∀ o ∈ ops, o.1.length = s.cfg.A) :
    ∃ responses t, runEdges (ops.map fun o => present (encodeUpdate o.1 o.2)) s = some (responses, t) ∧
      ∀ i, histBits t i = (outcomesFor s.cfg i ops).foldl shiftInsert (histBits s i) := by
  induction ops generalizing s with
  | nil => exact ⟨[], s, rfl, fun _ => rfl⟩
  | cons o ops ih =>
    obtain ⟨ho, hops⟩ := List.forall_mem_cons.1 ha
    obtain ⟨s', hstep, hg', hcfg, hhist⟩ := step_update_history o.2 hg ho
    obtain ⟨rs, t, hrun, ht⟩ := ih hg' (hcfg ▸ hops)
    refine ⟨_, t, runEdges_cons_eq_some.2 ⟨s', rs, hstep, hrun, rfl⟩, fun i => ?_⟩
    rw [ht i, hhist i, hcfg, outcomesFor_cons]
    split <;> rfl

/-- Settles O55, by induction on the UPDATEs: each shifts its outcome into the one register it selects. -/
theorem historyHoldsLatestOutcomes : Obligations.HistoryHoldsLatestOutcomes := by
  intro ops s hg ha
  obtain ⟨responses, t, hrun, ht⟩ := runEdges_updates_history ops hg ha
  refine ⟨responses, t, hrun, ?_⟩
  rintro a i - - mine rfl
  rw [ht i, foldl_shiftInsert]
  rfl

/-! ### Indices and keys -/

/-- Settles O28: an admitted instance has an index and a key for every address and history, and outside GAg the index
is one of the bank, of width `IW`; the key has width `KW`. -/
theorem indexAndKeyWidths : Obligations.IndexAndKeyWidths := by
  intro cfg addr h hl ha hh
  obtain ⟨i, hi, hix, hg⟩ := hidx_exists hl ha
  obtain ⟨key, hk, hkl⟩ := tkey_exists hl ha hh
  have hentry {w n : Nat} (hw : indexWidth cfg = some w) (hn : keyWidth cfg = n) :
      ∃ j, i = .entry j ∧ j.length = w ∧ key.length = n := by
    cases i with
    | global => simp [indexWidth, hg.1 rfl] at hw
    | entry j => exact ⟨j, rfl, Option.some.inj ((hix j rfl).symm.trans hw), hkl.trans hn⟩
  exact ⟨i, key, hi, hk,
    fun hv => ⟨hg.2 hv, by simpa [keyWidth, hv] using hkl⟩,
    fun hv => hentry (by simp [indexWidth, hv]) (by simp [keyWidth, hv]),
    fun hv => hentry (by simp [indexWidth, hv]) (by simp [keyWidth, hv]),
    fun hv => hentry (by simp [indexWidth, hv]) (by simp [keyWidth, hv]),
    fun hv => hentry (by simp [indexWidth, hv]) (by simp [keyWidth, hv])⟩

/-! ### Frames and outputs -/

/-- R121: only GAg selects the global register. -/
theorem variant_of_hidx_global {cfg : Config} {addr : Bits} (h : hidx cfg addr = some .global) :
    cfg.variant = .GAg := by
  cases hv : cfg.variant <;> simp [hidx, hv] at h ⊢

/-- R125: UPDATE of a bank register leaves the global register. -/
@[simp] theorem updated_entry_bhr (s : State) (j key : Bits) (actual : BranchResult) :
    (updated s (.entry j) key actual).bhr = s.bhr := rfl

/-- R125: UPDATE writes no register of the bank but the one it selects. -/
theorem tableGet_bank_updated_other {s : State} {i : HistIndex} {j key : Bits} {actual : BranchResult}
    (h : i ≠ .entry j) : tableGet (updated s i key actual).bank j = tableGet s.bank j := by
  cases i with
  | global => rfl
  | entry x => exact tableGet_put_other _ _ fun hjx => h (by rw [hjx])

/-- Settles O45: a violation changes `FAILED` only, and UPDATE writes the register and the entry it selects. -/
theorem updateFrame : Obligations.UpdateFrame := by
  intro v addr actual s t h
  obtain ⟨hv, ⟨c, rfl⟩ | ⟨x, key, hs, rfl⟩⟩ := exec_updateInstr_eq_next h
  · exact ⟨rfl, rfl, rfl, .inr rfl, fun _ => rfl, fun _ _ => rfl, fun _ _ _ _ => rfl⟩
  refine ⟨updated_cfg .., updated_sc .., updated_input .., .inl (updated_failed ..), fun hne => ?bhr,
    fun j hj => ?bank, fun i k hi hk => ?pht⟩
  case bhr =>
    cases x with
    | global => exact absurd (hv ▸ variant_of_hidx_global hs.index) hne
    | entry j => exact updated_entry_bhr s j key actual
  case bank =>
    have hne : x ≠ .entry j := by rintro rfl; exact hj hs.index
    exact tableGet_bank_updated_other hne
  case pht =>
    obtain rfl : x = i := Option.some.inj (hs.index.symm.trans hi)
    have hne : k ≠ key := by rintro rfl; exact hk hs.keyed
    simp [tableGet_put_other _ _ hne]

/-- Settles O50: both states answer PREDICT with the top bit of the selected entry. -/
theorem predictionDependsOnSelectedEntry : Obligations.PredictionDependsOnSelectedEntry := by
  intro s t v addr key i hs ht hcfg hv ha hi hh hk hc
  subst hv
  have hsel : Selects t addr i key :=
    .of_index ht (hcfg ▸ ha) (hcfg ▸ hi) (by rw [← hcfg, ← hh]; exact hk)
  have hw := exec_predict_next ht.1 hsel
  rw [← hc, ← hcfg] at hw
  exact ⟨_, _, _, exec_predict_next hs.1 (.of_index hs ha hi hk), hw, rfl, rfl⟩

/-- Settles O56: from what PREDICT, UPDATE and MONITOR of a variant can answer. -/
theorem outputSignals : Obligations.OutputSignals := by
  intro s t v addr actual
  refine ⟨fun h => ?predict, fun h => ?update, fun h => ?nop, fun h => ?monitor⟩
  case predict =>
    obtain ⟨c, rfl⟩ | ⟨x, key, -, rfl⟩ := exec_predictInstr_eq_next h
    · exact ⟨fun hno => by simp [raise, isViolation] at hno, fun _ => ⟨rfl, rfl⟩⟩
    · exact ⟨fun _ => ⟨rfl, by simp [predSignal, predictionOf]⟩, fun hv => by simp [isViolation] at hv⟩
  case update =>
    obtain ⟨-, ⟨c, rfl⟩ | ⟨x, key, -, rfl⟩⟩ := exec_updateInstr_eq_next h
    · exact ⟨rfl, .inr ⟨rfl, rfl⟩⟩
    · exact ⟨rfl, .inl rfl⟩
  case nop =>
    cases h
    exact ⟨rfl, rfl, rfl⟩
  case monitor =>
    cases exec_monitorInstr_eq_next h
    exact ⟨rfl, rfl⟩

end Sys2Proof.Machine
end

section
/-! Proofs of the statements of spec/20_memory.md: canonical tables as maps, when two operations share a register or an
entry, and what a repeated PREDICT does. -/

namespace Sys2Proof.Machine

/-! ### Canonical tables -/

/-- R33: a canonical table lists exactly what its keys read. -/
theorem tableGet_eq_some_iff_mem {t : Table} {k v : Bits} (hw : Memory.wf t) :
    tableGet t k = some v ↔ (k, v) ∈ t :=
  ⟨tableGet_eq_some_mem, tableGet_of_mem hw⟩

/-- Strictly rising keys list no entry twice. -/
theorem nodup_of_wf {t : Table} (hw : Memory.wf t) : t.Nodup :=
  hw.imp fun {a b} hlt heq => by simp [heq, keyLt_irrefl] at hlt

theorem keyLt_asymm {x y : Bits} (h : keyLt x y = true) : ¬keyLt y x = true := fun h' => by
  simpa [keyLt_irrefl] using keyLt_trans h h'

/-- R33, R71: canonical tables that read alike list the same entries, and the order of the keys leaves one way to list
them. -/
theorem table_ext {t t' : Table} (hw : Memory.wf t) (hw' : Memory.wf t')
    (h : ∀ k, tableGet t k = tableGet t' k) : t = t' := by
  have hperm : t.Perm t' := (List.perm_ext_iff_of_nodup (nodup_of_wf hw) (nodup_of_wf hw')).2 fun ⟨k, v⟩ => by
    rw [← tableGet_eq_some_iff_mem hw, ← tableGet_eq_some_iff_mem hw', h]
  exact hperm.eq_of_pairwise (fun _ _ _ _ hab hba => absurd hba (keyLt_asymm hab)) hw hw'

/-- R33: writes to two different keys commute, since every key reads the same after both. -/
theorem tablePut_comm {t : Table} {k k' : Bits} (v v' : Bits) (hw : Memory.wf t) (hne : k ≠ k') :
    tablePut (tablePut t k v) k' v' = tablePut (tablePut t k' v') k v := by
  refine table_ext (tablePut_keeps_wf _ _ (tablePut_keeps_wf _ _ hw))
    (tablePut_keeps_wf _ _ (tablePut_keeps_wf _ _ hw)) fun j => ?_
  simp only [tableGet_put]
  by_cases hj : j = k'
  · simp [hj, hne.symm]
  · simp [hj]

/-- Settles O26, from extensionality of canonical tables. -/
theorem canonicalTablesAreMaps : Obligations.CanonicalTablesAreMaps :=
  ⟨fun _ _ => table_ext, fun _ _ v _ v' => tablePut_comm v v'⟩

/-! ### When two operations reach the same register and the same entry -/

section Aliasing

variable {cfg : Config} {a b : Bits}

/-- R121: the variants of one history register per address. -/
theorem hidx_eq_iff_of_address (hv : cfg.variant = .PAp ∨ cfg.variant = .PAs) :
    hidx cfg a = hidx cfg b ↔ a = b := by
  rcases hv with hv | hv <;> simp [hidx, hv]

/-- R121: the variants of one history register per set. -/
theorem hidx_eq_iff_of_hash (hv : cfg.variant = .SAp ∨ cfg.variant = .SAs) :
    hidx cfg a = hidx cfg b ↔ hashFold a cfg.K = hashFold b cfg.K := by
  have hentry : Function.Injective HistIndex.entry := fun _ _ => HistIndex.entry.inj
  rcases hv with hv | hv <;> simp only [hidx, hv, (Option.map_injective hentry).eq_iff]

variable (h g : Bits)

/-- R122: the variants whose key is the address with the history. -/
theorem tkey_eq_iff_of_address (hv : cfg.variant = .PAp ∨ cfg.variant = .SAp) (hl : a.length = b.length) :
    tkey cfg a h = tkey cfg b g ↔ a = b ∧ h = g := by
  rcases hv with hv | hv <;> simp only [tkey, hv, Option.some.injEq, List.append_eq_append_iff_of_size_eq_left hl]

/-- R122: the variants whose key is the hashed address with the history. Both hashes have a value, of `K` bits. -/
theorem tkey_eq_iff_of_hash (hv : cfg.variant = .PAs ∨ cfg.variant = .SAs) (hl : legal cfg = true)
    (ha : a.length = cfg.A) (hb : b.length = cfg.A) :
    tkey cfg a h = tkey cfg b g ↔ hashFold a cfg.K = hashFold b cfg.K ∧ h = g := by
  have hkey : ∀ x y, tkey cfg x y = (hashFold x cfg.K).map (· ++ y) := fun x y => by
    rcases hv with hv | hv <;> simp only [tkey, hv]
  have hashed : hashes cfg.variant = true := by rcases hv with hv | hv <;> rw [hv] <;> rfl
  obtain ⟨-, hk⟩ := legal_iff.1 hl
  rw [if_pos hashed] at hk
  obtain ⟨x, hx, hxl⟩ := hashFold_in_domain hk.1 (ha ▸ hk.2)
  obtain ⟨y, hy, hyl⟩ := hashFold_in_domain hk.1 (hb ▸ hk.2)
  simp only [hkey, hx, hy, Option.map_some, Option.some.injEq,
    List.append_eq_append_iff_of_size_eq_left (hxl.trans hyl.symm)]

end Aliasing

/-- Settles O29: in each variant the key and the index are made of the address or of its hash. -/
theorem aliasingIsKeyEquality : Obligations.AliasingIsKeyEquality := by
  intro cfg a b h g hl ha hb _ _
  have hab := ha.trans hb.symm
  exact ⟨fun hv => by simp [tkey, hidx, hv],
    fun hv => ⟨tkey_eq_iff_of_address h g (.inl hv) hab, hidx_eq_iff_of_address (.inl hv)⟩,
    fun hv => ⟨tkey_eq_iff_of_hash h g (.inl hv) hl ha hb, hidx_eq_iff_of_address (.inr hv)⟩,
    fun hv => ⟨tkey_eq_iff_of_address h g (.inr hv) hab, hidx_eq_iff_of_hash (.inl hv)⟩,
    fun hv => ⟨tkey_eq_iff_of_hash h g (.inr hv) hl ha hb, hidx_eq_iff_of_hash (.inr hv)⟩⟩

/-! ### A repeated PREDICT -/

/-- R88: after one addition the key is present, so a second adds nothing. -/
theorem tablePutIfAbsent_twice (t : Table) (k d : Bits) :
    tablePutIfAbsent (tablePutIfAbsent t k d) k d = tablePutIfAbsent t k d :=
  tablePutIfAbsent_of_present d (by rw [tableGet_putIfAbsent, if_pos rfl])

/-- R82: a register that has been read is present. -/
theorem touchHist_predicted_same (s : State) (i : HistIndex) (key : Bits) :
    touchHist (predicted s i key) i = predicted s i key := by
  cases i with
  | global => rfl
  | entry j => exact congrArg (predicted s (.entry j) key).setBank (tablePutIfAbsent_twice s.bank j _)

/-- R124: PREDICT of what it has selected before changes no register, no table and not the working register. -/
theorem predicted_predicted (s : State) (i : HistIndex) (key : Bits) :
    predicted (predicted s i key) i key = predicted s i key := by
  rw [predicted, touchHist_predicted_same, predicted_cfg, predicted_pht, tablePutIfAbsent_twice, readOr_putIfAbsent]
  rfl

/-- The response is no part of what PREDICT reads or writes. -/
theorem predicted_setResp (s : State) (i : HistIndex) (key : Bits) (r : Response) :
    predicted (s.setResp r) i key = (predicted s i key).setResp r := by cases i <;> rfl

@[simp] theorem State.setResp_setResp (s : State) (r r' : Response) : (s.setResp r).setResp r' = s.setResp r' := rfl

/-- R124: after a PREDICT, whatever has been responded, the same PREDICT selects the same register and entry, which are
present and read as before. -/
theorem exec_predict_again {s : State} {addr key : Bits} {i : HistIndex} (hw : s.Wf) (hs : Selects s addr i key)
    (r : Response) :
    exec (predictInstr s.cfg.variant addr) ((predicted s i key).setResp r) =
      .next ((predicted s i key).setResp (.prediction (predictionOf (readOr s.cfg.S s.pht key)))) := by
  have hsame : SameButPresence s ((predicted s i key).setResp r) := (sameButPresence_predicted s i key).symm
  have hwf := exec_keeps_wf hw (exec_predict_next hw hs)
  simpa [predicted_setResp, predicted_predicted, readOr_putIfAbsent] using
    exec_predict_next (s := (predicted s i key).setResp r) hwf (hsame.selects hs)

/-- Settles O52: the first PREDICT leaves its own effect, which the second leaves as it is. -/
theorem predictTwiceIsIdempotent : Obligations.PredictTwiceIsIdempotent := by
  rintro s _ addr ⟨hw, hf⟩ rfl ha
  obtain ⟨i, key, hs, -⟩ := selects_exists hw hf ha
  exact ⟨_, exec_predict_next hw hs, exec_predict_again hw hs _⟩

end Sys2Proof.Machine
end

section
/-! Proofs of the statements of spec/30_encoding.md: the command word and its decoding, the fields an operation does not
use, the forms of a clock edge, and NOP and MONITOR. -/

namespace Sys2Proof.Machine

/-! ### The command word of an operation -/

@[simp] theorem encode_predictInstr (cfg : Config) (v : Variant) (addr : Bits) :
    encode cfg (predictInstr v addr) = encodePredict addr := by cases v <;> rfl

@[simp] theorem encode_updateInstr (cfg : Config) (v : Variant) (addr : Bits) (actual : BranchResult) :
    encode cfg (updateInstr v addr actual) = encodeUpdate addr actual := by cases v <;> rfl

@[simp] theorem encode_monitorInstr (cfg : Config) (v : Variant) :
    encode cfg (monitorInstr v) = encodeMonitor cfg := by cases v <;> rfl

@[simp] theorem decode_encodePredict (cfg : Config) (addr : Bits) :
    decode cfg (encodePredict addr) = .ok (predictInstr cfg.variant addr) := decode_cmdWord ..

@[simp] theorem decode_encodeUpdate (cfg : Config) (addr : Bits) (actual : BranchResult) :
    decode cfg (encodeUpdate addr actual) = .ok (updateInstr cfg.variant addr actual) := by
  simp [encodeUpdate, selectRow]

@[simp] theorem decode_encodeMonitor (cfg : Config) :
    decode cfg (encodeMonitor cfg) = .ok (monitorInstr cfg.variant) := decode_cmdWord ..

/-- Settles O6: an operation of the instance is NOP or one of its variant's PREDICT, UPDATE and MONITOR, each of which
the `op` field selects. -/
theorem decodeEncodeRoundTrip : Obligations.DecodeEncodeRoundTrip := by
  intro cfg i hi
  rcases wf_cases hi with rfl | ⟨addr, -, rfl⟩ | ⟨addr, actual, -, rfl⟩ | rfl
  · exact decode_cmdWord ..
  · rw [encode_predictInstr, decode_encodePredict]
  · rw [encode_updateInstr, decode_encodeUpdate]
  · rw [encode_monitorInstr, decode_encodeMonitor]

/-! ### The value of a command word -/

/-- R53: the integer a command word stands for. -/
theorem val_cmdWord (addr : Bits) (actual op1 op0 : Bit) :
    val (cmdWord addr actual op1 op0) = val addr * 8 + actual.toNat * 4 + op1.toNat * 2 + op0.toNat := by
  simp [cmdWord, val_append, val, Nat.add_assoc]

theorem val_encodePredict (addr : Bits) : val (encodePredict addr) = val addr * 8 + 1 := val_cmdWord ..

theorem val_encodeUpdate (addr : Bits) (r : BranchResult) :
    val (encodeUpdate addr r) = val addr * 8 + (if r = .taken then 4 else 0) + 2 := by
  rw [encodeUpdate, val_cmdWord]
  cases r <;> rfl

theorem val_encodeMonitor (cfg : Config) : val (encodeMonitor cfg) = 3 := by
  simp [encodeMonitor, val_cmdWord]

/-- R64: what holds of an operation in every variant holds of its five rows. -/
theorem forall_mem_rows {P : Instr → Prop} (row : Variant → Instr) (h : ∀ v, P (row v)) :
    ∀ i ∈ [row .GAg, row .PAp, row .PAs, row .SAp, row .SAs], P i := by
  simp [h]

/-- Settles O8: the word of PREDICT, UPDATE and MONITOR is the same in every variant, and its value is read off its
fields. -/
theorem commandWordValue : Obligations.CommandWordValue := by
  intro cfg addr r ha
  refine ⟨forall_mem_rows (predictInstr · addr) fun v => ?predict,
    forall_mem_rows (updateInstr · addr r) fun v => ?update,
    forall_mem_rows monitorInstr fun v => ?monitor, ?nop, Laws.EncodeWidth.nop cfg rfl⟩
  case predict =>
    exact encode_predictInstr cfg v addr ▸ ⟨val_encodePredict addr, Laws.EncodeWidth.width_predict ha⟩
  case update =>
    exact encode_updateInstr cfg v addr r ▸ ⟨val_encodeUpdate addr r, Laws.EncodeWidth.width_update r ha⟩
  case monitor =>
    exact encode_monitorInstr cfg v ▸ ⟨val_encodeMonitor cfg, Laws.EncodeWidth.width_monitor cfg⟩
  case nop => simp [encode, val_cmdWord]

/-! ### The fields an operation does not use -/

/-- R54, R120: a step at an edge that presents a command word runs the row its `op` field selects. -/
theorem step_present_fields (s : State) (later : List ClockEdge) (addr : Bits) (a op1 op0 : Bit) :
    step { s with input := present (addr ++ [a, op1, op0]) :: later } =
      exec (selectRow s.cfg.variant addr a op1 op0) (s.setInput later) :=
  step_of_command (s := { s with input := present (cmdWord addr a op1 op0) :: later }) rfl rfl rfl (decode_cmdWord ..)

theorem checkAddr_congr {addr addr' : Bits} (s : State) (h : addr.length = addr'.length) :
    checkAddr addr s = checkAddr addr' s := by
  rw [checkAddr, checkAddr, h]

theorem hidx_of_gag {cfg : Config} (addr : Bits) (hv : cfg.variant = .GAg) : hidx cfg addr = some .global := by
  rw [hidx, hv]

theorem tkey_of_gag {cfg : Config} (addr h : Bits) (hv : cfg.variant = .GAg) : tkey cfg addr h = some h := by
  rw [tkey, hv]

/-- R123, R150: in GAg only the length of the address matters to PREDICT. -/
theorem predict_gag_congr {s : State} {addr addr' : Bits} (hv : s.cfg.variant = .GAg)
    (h : addr.length = addr'.length) : predict addr s = predict addr' s := by
  simp only [predict, checkAddr_congr s h, hidx_of_gag _ hv, demand, histRead, bind, Except.bind, tkey_of_gag _ _ hv]

/-- R123, R150: in GAg only the length of the address matters to UPDATE. -/
theorem update_gag_congr {s : State} {addr addr' : Bits} (actual : BranchResult) (hv : s.cfg.variant = .GAg)
    (h : addr.length = addr'.length) : update addr actual s = update addr' actual s := by
  simp only [update, checkAddr_congr s h, hidx_of_gag _ hv, demand, histRead, bind, Except.bind, tkey_of_gag _ _ hv]

/-- What an operation of a variant does in a state depends on what it does in that state only. -/
theorem onVariant_congr {v : Variant} {s : State} {op op' : State → Except Stop (State × Response)}
    (h : op s = op' s) : onVariant v s op = onVariant v s op' := by
  rw [onVariant, h, onVariant]

/-- Settles O9: the row that runs carries no unused field, and in GAg the engine looks at the length of the address
only. -/
theorem ignoredFieldsHaveNoEffect : Obligations.IgnoredFieldsHaveNoEffect := by
  intro s later addr addr' a a'
  refine ⟨List.forall_mem_cons.2 ⟨?nop, List.forall_mem_singleton.2 ?monitor⟩, ?predict,
    fun hv hl => ⟨?gagPredict, ?gagUpdate⟩⟩
  case nop | monitor | predict => rw [step_present_fields, step_present_fields]; rfl
  case gagPredict =>
    rw [step_present_fields, step_present_fields]
    simp only [selectRow, exec_predictInstr]
    exact onVariant_congr (predict_gag_congr hv hl)
  case gagUpdate =>
    rw [step_present_fields, step_present_fields]
    simp only [selectRow, exec_updateInstr]
    exact onVariant_congr (update_gag_congr _ hv hl)

/-! ### Decoding -/

/-- Settles O10: every word of `A + 3` bits is made of its fields, and each value of `op` is a row of the variant. -/
theorem everyCommandWordIsAnOperation : Obligations.EveryCommandWordIsAnOperation :=
  fun _ _ => decode_wf_of_length

theorem resultOf_eq_ite (a : Bit) : resultOf a = if a then .taken else .notTaken := by cases a <;> rfl

/-- R54, R64: what the three operations other than NOP decode to on an instance of the variant `v`. -/
theorem decode_rows {cfg : Config} {v : Variant} (addr : Bits) (a : Bit) (hv : cfg.variant = v) :
    decode cfg (addr ++ [a, false, true]) = .ok (predictInstr v addr) ∧
    decode cfg (addr ++ [a, true, false]) = .ok (updateInstr v addr (if a then .taken else .notTaken)) ∧
    decode cfg (addr ++ [a, true, true]) = .ok (monitorInstr v) := by
  subst hv
  rw [← resultOf_eq_ite]
  exact ⟨decode_cmdWord .., decode_cmdWord .., decode_cmdWord ..⟩

/-- Settles O7: the rows of an instance are those of its variant. -/
theorem decodeSelectsRowByVariantAndOp : Obligations.DecodeSelectsRowByVariantAndOp := fun cfg addr a =>
  ⟨decode_cmdWord cfg addr a false false, decode_rows addr a, decode_rows addr a, decode_rows addr a,
    decode_rows addr a, decode_rows addr a⟩

/-- Settles O11: each word is its fields written one after the other. -/
theorem sampleWordsDecode : Obligations.SampleWordsDecode :=
  ⟨decode_cmdWord _ [true, false, true, false] false false true,
    decode_cmdWord _ [true, false, true, false] true true false,
    decode_cmdWord _ [false, true, false] false true false,
    decode_cmdWord _ [false, false, false, true] true true false⟩

/-! ### The clock edge -/

/-- Settles O1: reset and `cmd_valid` leave the decoded operation to run. -/
theorem stepRunsDecodedCommand : Obligations.StepRunsDecodedCommand :=
  fun _ _ _ _ hin hr hv hd _ => step_of_command hin hr hv hd

/-- Settles O2: nothing presented, a reset edge, and an edge without a command. -/
theorem edgesWithoutCommand : Obligations.EdgesWithoutCommand :=
  ⟨fun _ => step_of_no_edge, fun _ _ _ hin => ⟨step_of_reset hin, step_of_idle_edge hin⟩⟩

/-! ### NOP and MONITOR -/

/-- R65, R126: MONITOR of an admitted instance of the variant `v` shows the elements that variant has. -/
theorem exec_monitor_shows {s : State} {v : Variant} (hl : legal s.cfg = true) (hv : s.cfg.variant = v) :
    exec (monitorInstr v) s = .next { s with
      resp := .snapshot
        { variant := v, H := s.cfg.H, S := s.cfg.S, A := s.cfg.A, K := if hashes v then some s.cfg.K else none,
          bhr := if v = .GAg then some s.bhr else none, bank := if v = .GAg then none else some s.bank,
          pht := s.pht, sc := s.sc, failed := s.failed } } := by
  subst hv
  exact exec_monitor_next hl

/-- Settles O40: NOP answers in every state, and MONITOR shows the elements of its variant. -/
theorem nopAndMonitorChangeNothing : Obligations.NopAndMonitorChangeNothing :=
  ⟨exec_nop, fun _ hl =>
    ⟨exec_monitor_shows hl, exec_monitor_shows hl, exec_monitor_shows hl, exec_monitor_shows hl,
      exec_monitor_shows hl⟩⟩

end Sys2Proof.Machine
end

section
/-! Proofs of the statements of spec/40_primitives.md: insertion into a shift register, the storage actions on the bank
and the table, and the violations that a wrong width raises. -/

namespace Sys2Proof.Machine

/-! ### Insertion into a shift register -/

/-- R7, R76: the bit inserted at the last index has weight 1, and the bit dropped at index 0 is the one that the
reduction modulo `2^L` drops. -/
theorem val_shiftInsert_cons (a : Bit) (rest : Bits) (b : Bit) :
    val (shiftInsert (a :: rest) b) = (2 * val (a :: rest) + b.toNat) % 2 ^ (a :: rest).length := by
  have hlt : val (rest ++ [b]) < 2 ^ (rest.length + 1) := by simpa using val_lt (rest ++ [b])
  have hval : val (rest ++ [b]) = 2 * val rest + b.toNat := by simp [val_append, val, Nat.mul_comm]
  have hsplit : 2 * val (a :: rest) + b.toNat = val (rest ++ [b]) + 2 ^ (rest.length + 1) * a.toNat := by
    rw [hval, val]
    ring
  rw [hsplit, List.length_cons, Nat.add_mul_mod_self_left, Nat.mod_eq_of_lt hlt]
  rfl

/-- Settles O14: an insertion drops the bit at index 0 and appends the new one, so `L` of them replace all `L` bits. -/
theorem insertShiftsOnePosition : Obligations.InsertShiftsOnePosition := by
  refine ⟨fun r b hr => ?_, fun r bs hlen => ?_⟩
  · obtain ⟨a, rest, rfl⟩ := List.exists_cons_of_length_pos hr
    refine ⟨shiftInsert_length _ b, fun i hi => ?_, by simp [shiftInsert], val_shiftInsert_cons a rest b⟩
    have hi' : i < rest.length := Nat.lt_of_succ_le (Nat.le_of_succ_le_succ hi)
    rw [shiftInsert, List.getElem?_append_left hi', List.getElem?_cons_succ]
  · rw [foldl_shiftInsert, hlen, List.drop_left]

/-! ### One entry of a table -/

/-- R83, R87: a write stores the value at its key and leaves every other key alone. -/
theorem tablePut_stores_one (t : Table) (k v : Bits) :
    tableGet (tablePut t k v) k = some v ∧ ∀ k', k' ≠ k → tableGet (tablePut t k v) k' = tableGet t k' :=
  ⟨tableGet_put_same t k v, fun _ => tableGet_put_other t v⟩

/-- R88: at an absent key, adding a value is a write. -/
theorem tablePutIfAbsent_of_absent {t : Table} {k : Bits} (d : Bits) (h : tableGet t k = none) :
    tablePutIfAbsent t k d = tablePut t k d := by simp [tablePutIfAbsent, h]

/-- R88: after one addition the key is present, so a second adds nothing, whatever its default. -/
theorem tablePutIfAbsent_putIfAbsent (t : Table) (k d d' : Bits) :
    tablePutIfAbsent (tablePutIfAbsent t k d) k d' = tablePutIfAbsent t k d :=
  tablePutIfAbsent_of_present d' (by rw [tableGet_putIfAbsent, if_pos rfl])

theorem readOr_of_absent {t : Table} {k : Bits} (w : Nat) (h : tableGet t k = none) : readOr w t k = zeros w := by
  simp [readOr, h]

theorem readOr_of_present {t : Table} {k v : Bits} (w : Nat) (h : tableGet t k = some v) : readOr w t k = v := by
  simp [readOr, h]

/-! ### Wrong widths -/

theorem loadReg_violation {len : Nat} {v : Bits} (h : v.length ≠ len) :
    loadReg len v = .error (.violation .valueWidth) := if_neg h

theorem bankRead_violation {i : Bits} {s : State} (h : indexWidth s.cfg ≠ some i.length) :
    bankRead i s = .error (.violation .valueWidth) := if_neg h

theorem bankWrite_violation {i v : Bits} {s : State}
    (h : ¬(indexWidth s.cfg = some i.length ∧ v.length = s.cfg.H)) :
    bankWrite i v s = .error (.violation .valueWidth) := if_neg h

theorem phtGet_violation {k : Bits} {s : State} (h : k.length ≠ keyWidth s.cfg) :
    phtGet k s = .error (.violation .valueWidth) := if_neg h

theorem phtPut_violation {k v : Bits} {s : State} (h : ¬(k.length = keyWidth s.cfg ∧ v.length = s.cfg.S)) :
    phtPut k v s = .error (.violation .valueWidth) := if_neg h

theorem phtPutIfAbsent_violation {k d : Bits} {s : State}
    (h : ¬(k.length = keyWidth s.cfg ∧ d.length = s.cfg.S)) :
    phtPutIfAbsent k d s = .error (.violation .valueWidth) := if_neg h

/-- Settles O25: each action checks the widths of its operands first. -/
theorem wrongWidthsAreValueViolations : Obligations.WrongWidthsAreValueViolations :=
  ⟨fun _ _ => ⟨fun h => loadReg_eq_ok.2 ⟨h, rfl⟩, loadReg_violation⟩,
    fun _ _ _ hi => ⟨bankRead_violation hi, bankWrite_violation fun h => hi h.1⟩,
    fun _ _ _ hk => ⟨phtGet_violation hk, phtPut_violation fun h => hk h.1, phtPutIfAbsent_violation fun h => hk h.1⟩⟩

/-! ### The bank of history registers -/

/-- Settles O20: a read answers the register's bits and adds a cleared register where there was none. -/
theorem bankReadCreatesClearedRegister : Obligations.BankReadCreatesClearedRegister := by
  intro s i hi
  have hread : bankRead i s = .ok (histBits s (.entry i), touchHist s (.entry i)) := bankRead_eq_ok.2 ⟨hi, rfl, rfl⟩
  simp only [histBits, touchHist] at hread
  refine ⟨fun habsent => ?_, fun v hv => ?_⟩
  · rw [readOr_of_absent _ habsent, tablePutIfAbsent_of_absent _ habsent] at hread
    exact ⟨_, hread, tablePut_stores_one s.bank i _⟩
  · rwa [readOr_of_present _ hv, tablePutIfAbsent_of_present _ hv] at hread

/-- Settles O21, from the write of one entry and the check of the value's width. -/
theorem bankWriteStoresOneRegister : Obligations.BankWriteStoresOneRegister := fun s i hi =>
  ⟨fun v hv => ⟨_, bankWrite_eq_ok.2 ⟨⟨hi, hv⟩, rfl⟩, tablePut_stores_one s.bank i v⟩,
    fun _ hv => bankWrite_violation fun h => hv h.2⟩

/-- R84: a write to a register that has been read replaces what the read added. -/
theorem setBank_put_touchHist (s : State) (i v : Bits) :
    (touchHist s (.entry i)).setBank (tablePut (touchHist s (.entry i)).bank i v) = s.setBank (tablePut s.bank i v) :=
  congrArg s.setBank (tablePut_putIfAbsent s.bank i (zeros s.cfg.H) v)

/-- R84: everything `BankInsert` can answer: a read and a write of one register. -/
theorem bankInsert_eq_ok {i : Bits} {b : Bit} {s s' : State} :
    bankInsert i b s = .ok s' ↔
      indexWidth s.cfg = some i.length ∧ (readOr s.cfg.H s.bank i).length = s.cfg.H ∧
        s' = s.setBank (tablePut s.bank i (shiftInsert (readOr s.cfg.H s.bank i) b)) := by
  simp only [bankInsert, bind_eq_ok, Prod.exists, bankRead_eq_ok, bankWrite_eq_ok]
  constructor
  · rintro ⟨h, s₁, ⟨hi, rfl, rfl⟩, ⟨-, hlen⟩, rfl⟩
    exact ⟨hi, by simpa [histBits] using hlen, setBank_put_touchHist s i _⟩
  · rintro ⟨hi, hlen, rfl⟩
    exact ⟨_, _, ⟨hi, rfl, rfl⟩, ⟨by simpa using hi, by simpa [histBits] using hlen⟩, (setBank_put_touchHist s i _).symm⟩

/-- Settles O22: the register inserted into has `H` bits, stored or cleared, and only its index is written. -/
theorem bankInsertShiftsOneRegister : Obligations.BankInsertShiftsOneRegister := by
  intro s i b hi hstored
  have hlen : (readOr s.cfg.H s.bank i).length = s.cfg.H := by
    cases h : tableGet s.bank i with
    | none => rw [readOr_of_absent _ h, zeros_length]
    | some v => rw [readOr_of_present _ h, hstored v h]
  exact ⟨_, bankInsert_eq_ok.2 ⟨hi, hlen, rfl⟩, tablePut_stores_one s.bank i _⟩

/-! ### The pattern history table -/

/-- R88: at an absent key `PhtPutIfAbsent` writes that one entry. -/
theorem phtPutIfAbsent_of_absent {k d : Bits} {s : State} (hk : k.length = keyWidth s.cfg)
    (hd : d.length = s.cfg.S) (h : tableGet s.pht k = none) :
    phtPutIfAbsent k d s = .ok (s.setPht (tablePut s.pht k d)) :=
  phtPutIfAbsent_eq_ok.2 ⟨⟨hk, hd⟩, by rw [tablePutIfAbsent_of_absent d h]⟩

/-- R88: at a present key `PhtPutIfAbsent` changes nothing. -/
theorem phtPutIfAbsent_of_present {k d v : Bits} {s : State} (hk : k.length = keyWidth s.cfg)
    (hd : d.length = s.cfg.S) (h : tableGet s.pht k = some v) : phtPutIfAbsent k d s = .ok s :=
  phtPutIfAbsent_eq_ok.2 ⟨⟨hk, hd⟩, by rw [tablePutIfAbsent_of_present d h]; rfl⟩

/-- R88: a second `PhtPutIfAbsent` at a key changes nothing, whatever its default. -/
theorem phtPutIfAbsent_twice {k d d' : Bits} {s : State} (hk : k.length = keyWidth s.cfg)
    (hd : d.length = s.cfg.S) (hd' : d'.length = s.cfg.S) :
    ∃ s', phtPutIfAbsent k d s = .ok s' ∧ phtPutIfAbsent k d' s' = .ok s' :=
  ⟨_, phtPutIfAbsent_eq_ok.2 ⟨⟨hk, hd⟩, rfl⟩, phtPutIfAbsent_eq_ok.2 ⟨⟨hk, hd'⟩, by
    rw [State.setPht_pht, tablePutIfAbsent_putIfAbsent]
    rfl⟩⟩

/-- Settles O23, from the write of one entry and the two cases of an addition. -/
theorem phtGetPutPutIfAbsent : Obligations.PhtGetPutPutIfAbsent := by
  intro s k hk
  refine ⟨phtGet_eq_ok.2 ⟨hk, rfl⟩, fun v hv => ⟨?put, ?absent, ?present⟩,
    fun v hv => phtPut_violation fun h => hv h.2, fun _ _ => phtPutIfAbsent_twice hk⟩
  case put => exact ⟨_, phtPut_eq_ok.2 ⟨⟨hk, hv⟩, rfl⟩, tablePut_stores_one s.pht k v⟩
  case absent => exact fun h => ⟨_, phtPutIfAbsent_of_absent hk hv h, tablePut_stores_one s.pht k v⟩
  case present =>
    intro h
    obtain ⟨w, hw⟩ := Option.ne_none_iff_exists'.1 h
    exact phtPutIfAbsent_of_present hk hv hw

/-- R90, R103: a default block predicts NOT_TAKEN. -/
theorem predictionOf_zeros (n : Nat) : predictionOf (zeros n) = .notTaken := by cases n <;> rfl

/-- Settles O24: the answer is what the key reads, and the default where nothing is stored. -/
theorem phtGetOrInsertDefaultAnswers : Obligations.PhtGetOrInsertDefaultAnswers := by
  intro s k hk
  refine ⟨_, _, phtGetOrInsertDefault_eq_ok.2 ⟨hk, rfl, rfl⟩, ?stored, fun k' hne => ?other, fun v hv => ?present,
    fun habsent => ?absent⟩
  case stored => rw [tableGet_putIfAbsent, if_pos rfl, readOr]
  case other => rw [tableGet_putIfAbsent, if_neg hne]
  case present => exact ⟨readOr_of_present _ hv, tablePutIfAbsent_of_present _ hv⟩
  case absent =>
    rw [readOr_of_absent _ habsent]
    exact ⟨rfl, predictionOf_zeros _⟩

end Sys2Proof.Machine
end

section
/-! Proofs of the statements of spec/41_combinational.md: the saturating counter step, the prediction bit, the address
hash, and the variants whose hash keeps the whole address. -/

namespace Sys2Proof.Machine

/-! ### The saturating counter -/

theorem val_count_true (c : Bits) : val (count c true) = min (val c + 1) (2 ^ c.length - 1) := by simp [val_count]

theorem val_count_false (c : Bits) : val (count c false) = val c - 1 := by simp [val_count]

/-- R7: the all-ones vector has the greatest value of its length. -/
theorem val_replicate_true (n : Nat) : val (List.replicate n true) = 2 ^ n - 1 := by
  induction n with
  | zero => rfl
  | succ n ih =>
    have := n.two_pow_pos
    simp only [List.replicate_succ, val, List.length_replicate, ih, Bool.toNat_true, Nat.pow_succ]
    omega

theorem eq_ones_of_val {c : Bits} {n : Nat} (hl : c.length = n) (hv : val c = 2 ^ n - 1) :
    c = List.replicate n true :=
  val_injective (by simp [hl]) (by rw [hv, val_replicate_true])

theorem eq_zeros_of_val {c : Bits} {n : Nat} (hl : c.length = n) (hv : val c = 0) : c = zeros n :=
  val_injective (by simp [hl]) (by rw [hv, val_zeros])

/-- Settles O15, from the exact value of a counter step; a vector is determined by its length and value. -/
theorem countStepsAndClamps : Obligations.CountStepsAndClamps := by
  refine ⟨by decide, fun c _ => ⟨count_length .., count_length .., val_count_true c, ?_, ?_, ?_⟩⟩
  · rw [val_count_false]
    omega
  · refine eq_ones_of_val (by simp) ?_
    rw [val_count_true, val_replicate_true, List.length_replicate]
    omega
  · exact eq_zeros_of_val (by simp) (by rw [val_count_false, val_zeros])

@[simp] theorem iterate_count_length (c : Bits) (inc : Bool) (n : Nat) :
    ((fun c => count c inc)^[n] c).length = c.length := by
  induction n with
  | zero => rfl
  | succ n ih => rw [Function.iterate_succ_apply', count_length, ih]

/-- R101: the value after `n` increments. -/
theorem val_iterate_count_true (c : Bits) (n : Nat) :
    val ((fun c => count c true)^[n] c) = min (val c + n) (2 ^ c.length - 1) := by
  induction n with
  | zero =>
    have := val_lt c
    rw [Function.iterate_zero_apply]
    omega
  | succ n ih =>
    rw [Function.iterate_succ_apply', val_count_true, ih, iterate_count_length]
    omega

/-- R101: the value after `n` decrements. -/
theorem val_iterate_count_false (c : Bits) (n : Nat) : val ((fun c => count c false)^[n] c) = val c - n := by
  induction n with
  | zero => rfl
  | succ n ih => rw [Function.iterate_succ_apply', val_count_false, ih, Nat.sub_sub]

/-- Settles O16, by induction on the number of steps. -/
theorem countConverges : Obligations.CountConverges := by
  refine fun c n => ⟨val_iterate_count_true c n, val_iterate_count_false c n, fun hn => ⟨?_, ?_⟩⟩
  · refine eq_ones_of_val (iterate_count_length ..) ?_
    rw [val_iterate_count_true]
    omega
  · have := val_lt c
    refine eq_zeros_of_val (iterate_count_length ..) ?_
    rw [val_iterate_count_false]
    omega

/-! ### The prediction bit -/

/-- R103: the bit at index 0 has weight `2^(S-1)`, more than all the others together. -/
theorem predictionOf_eq_taken_iff {c : Bits} (h : 1 ≤ c.length) :
    predictionOf c = .taken ↔ 2 ^ (c.length - 1) ≤ val c := by
  cases c with
  | nil => simp at h
  | cons b rest =>
    have := val_lt rest
    cases b <;> simp [predictionOf, topBit, resultOf, val, this]

/-- Settles O17, from the value of a counter after `n` increments. -/
theorem predictionIsUpperHalf : Obligations.PredictionIsUpperHalf := by
  refine ⟨fun c h => predictionOf_eq_taken_iff h, fun S n hS => ?_⟩
  have hpow : 2 ^ S = 2 * 2 ^ (S - 1) := by rw [← Nat.pow_succ']; congr; omega
  have := (S - 1).two_pow_pos
  rw [predictionOf_eq_taken_iff (by simpa using hS), val_iterate_count_true, iterate_count_length, zeros_length,
    val_zeros]
  omega

/-! ### The address hash -/

@[simp] theorem xorBit_false (a : Bit) : xorBit a false = a := by cases a <;> rfl

@[simp] theorem false_xorBit (a : Bit) : xorBit false a = a := by cases a <;> rfl

theorem xorBit_assoc (a b c : Bit) : xorBit (xorBit a b) c = xorBit a (xorBit b c) := Bool.xor_assoc a b c

theorem xorBit_left_comm (a b c : Bit) : xorBit a (xorBit b c) = xorBit b (xorBit a c) := Bool.xor_left_comm a b c

/-- R70: the first bit of a vector taken out of its parity. -/
theorem foldl_xorBit_cons (b : Bit) (l : Bits) : (b :: l).foldl xorBit false = xorBit b (l.foldl xorBit false) := by
  have := List.foldl_hom (xorBit b) (g₁ := xorBit) (g₂ := xorBit) (l := l) (init := false) fun x y => xorBit_assoc b x y
  simpa using this

/-- R105: a bucket is the parity of the bits at the positions congruent to it. -/
theorem bucket_eq_parity (K j pos : Nat) (x : Bits) :
    bucket K j pos x = (((x.zipIdx pos).filter fun e => e.2 % K = j).map Prod.fst).foldl xorBit false := by
  induction x generalizing pos with
  | nil => rfl
  | cons b rest ih =>
    rw [bucket, ih, List.zipIdx_cons, List.filter_cons]
    by_cases h : pos % K = j
    · simp only [h, decide_true, if_true, List.map_cons, foldl_xorBit_cons]
    · simp only [h, decide_false, if_false, Bool.false_eq_true]

/-- R105, R107: inside its domain the hash lists its buckets. -/
theorem hashFold_of_domain {x : Bits} {K : Nat} (h1 : 1 ≤ K) (h2 : K ≤ x.length) :
    hashFold x K = some ((List.range K).map fun j => bucket K j 0 x) :=
  hashFold_eq_some.2 ⟨⟨h1, h2⟩, rfl⟩

/-- Settles O18: each bit of the hash is a bucket, which is a parity. -/
theorem hashFoldsRoundRobin : Obligations.HashFoldsRoundRobin := by
  refine ⟨fun x K h1 h2 => ⟨_, hashFold_of_domain h1 h2, by simp, fun j hj => ?_⟩, fun x K h => ?_⟩
  · rw [← bucket_eq_parity]
    simp [hj]
  · have : ¬(1 ≤ K ∧ K ≤ x.length) := by omega
    simp [hashFold, this]

/-- R105: no position of a vector that ends before `K` falls into a bucket before its first position. -/
theorem bucket_before {K j pos : Nat} {x : Bits} (hj : j < pos) (hK : pos + x.length ≤ K) :
    bucket K j pos x = false := by
  induction x generalizing pos with
  | nil => rfl
  | cons b rest ih =>
    rw [List.length_cons] at hK
    rw [bucket, Nat.mod_eq_of_lt (by omega), if_neg (by omega), ih (by omega) (by omega)]

/-- R106 (b): with as many buckets as positions each bucket holds one bit. -/
theorem bucket_of_full_width {K pos : Nat} {x : Bits} (hK : pos + x.length ≤ K) {n : Nat} (hn : n < x.length) :
    bucket K (pos + n) pos x = x[n] := by
  induction x generalizing pos n with
  | nil => simp at hn
  | cons b rest ih =>
    rw [List.length_cons] at hK hn
    rw [bucket, Nat.mod_eq_of_lt (by omega)]
    cases n with
    | zero => simp [bucket_before (Nat.lt_succ_self pos) (by omega : pos + 1 + rest.length ≤ K)]
    | succ n =>
      rw [if_neg (by omega), ← Nat.succ_add_eq_add_succ, ih (by omega) (by omega)]
      rfl

/-- R106 (b): the hash of full width is the identity. -/
theorem hashFold_full_width {x : Bits} (h : 1 ≤ x.length) : hashFold x x.length = some x := by
  rw [hashFold_of_domain h le_rfl]
  refine congrArg some (List.ext_getElem (by simp) fun n hn hx => ?_)
  have := bucket_of_full_width (Nat.zero_add x.length).le hx
  simpa using this

/-- R106 (c): the hash of one bit is the parity. -/
theorem hashFold_one {x : Bits} (h : 1 ≤ x.length) : hashFold x 1 = some [x.foldl xorBit false] := by
  rw [hashFold_of_domain le_rfl h]
  simp [bucket_eq_parity, Nat.mod_one]

theorem bucket_zeros (K j pos n : Nat) : bucket K j pos (zeros n) = false := by
  induction n generalizing pos with
  | zero => rfl
  | succ n ih =>
    have h := ih (pos + 1)
    rw [zeros] at h
    simp [zeros, List.replicate_succ, bucket, h]

/-- R106 (d): the hash of the zero vector is the zero vector. -/
theorem hashFold_zeros {N K : Nat} (h1 : 1 ≤ K) (h2 : K ≤ N) : hashFold (zeros N) K = some (zeros K) := by
  rw [hashFold_of_domain h1 (by simpa using h2)]
  simp only [bucket_zeros, List.map_const', List.length_range]
  rfl

/-- R106 (e): a bucket of an exclusive or is the exclusive or of the buckets. -/
theorem bucket_zipWith_xorBit (K j pos : Nat) {x y : Bits} (hl : x.length = y.length) :
    bucket K j pos (List.zipWith xorBit x y) = xorBit (bucket K j pos x) (bucket K j pos y) := by
  induction x generalizing y pos with
  | nil => rw [List.length_eq_zero_iff.1 hl.symm]; rfl
  | cons a x ih =>
    cases y with
    | nil => simp at hl
    | cons b y =>
      simp only [List.zipWith_cons_cons, bucket, ih (pos + 1) (Nat.succ.inj hl)]
      split
      · simp only [xorBit_assoc, xorBit_left_comm b]
      · rfl

/-- R106 (f): an exclusive or is zero exactly between equal vectors. -/
theorem zipWith_xorBit_eq_zeros_iff {n : Nat} {x y : Bits} (hx : x.length = n) (hy : y.length = n) :
    List.zipWith xorBit x y = zeros n ↔ x = y := by
  induction n generalizing x y with
  | zero => simp [List.length_eq_zero_iff.1 hx, List.length_eq_zero_iff.1 hy, zeros]
  | succ n ih =>
    obtain ⟨a, x, rfl⟩ := List.exists_cons_of_length_eq_add_one hx
    obtain ⟨b, y, rfl⟩ := List.exists_cons_of_length_eq_add_one hy
    have h := ih (Nat.succ.inj hx) (Nat.succ.inj hy)
    rw [zeros] at h
    simp [zeros, List.replicate_succ, xorBit, h]

/-- Settles O19, from the buckets: linearity holds of each of them. -/
theorem hashAlgebra : Obligations.HashAlgebra := by
  refine ⟨fun x h => ⟨hashFold_full_width h, hashFold_one h⟩, fun N K h1 h2 => hashFold_zeros h1 h2,
    fun x y K hl h1 h2 => ?_⟩
  obtain ⟨a, ha, hal⟩ := hashFold_in_domain h1 h2
  obtain ⟨b, hb, hbl⟩ := hashFold_in_domain h1 (hl ▸ h2)
  have hab : hashFold (List.zipWith xorBit x y) K = some (List.zipWith xorBit a b) := by
    rw [← (hashFold_eq_some.1 ha).2, ← (hashFold_eq_some.1 hb).2, hashFold_of_domain h1 (by simp [← hl, h2])]
    simp [List.zipWith_map, List.zipWith_self, bucket_zipWith_xorBit _ _ _ hl]
  exact ⟨a, b, ha, hb, hab, by rw [hab, Option.some_inj, zipWith_xorBit_eq_zeros_iff hal hbl]⟩

/-! ### A hash of full width: the variants that behave as PAp -/

/-- The parameters of a PAs, SAp or SAs instance whose hash has the width of the address. -/
structure FullWidth (cfg : Config) : Prop where
  variant : cfg.variant = .PAs ∨ cfg.variant = .SAp ∨ cfg.variant = .SAs
  keepsAll : cfg.K = cfg.A

section FullWidthHash

variable {s : State} {addr : Bits} (hc : FullWidth s.cfg)

include hc

/-- R11: the widths of an index and of a key are those of PAp. -/
theorem FullWidth.indexWidth_eq : indexWidth (asPAp s).cfg = indexWidth s.cfg := by
  rcases hc.variant with hv | hv | hv <;> simp [indexWidth, asPAp, hv, hc.keepsAll]

theorem FullWidth.keyWidth_eq : keyWidth (asPAp s).cfg = keyWidth s.cfg := by
  rcases hc.variant with hv | hv | hv <;> simp [keyWidth, asPAp, hv, hc.keepsAll]

/-- R18: the invariant holds in the instance of PAp too. -/
theorem FullWidth.asPAp_wf (hw : s.Wf) : (asPAp s).Wf := by
  obtain ⟨hl, hb, hbank, hpht, hsc⟩ := hw
  refine ⟨legal_iff.2 ⟨(legal_iff.1 hl).1, rfl⟩, ?_, ?_, ?_, hsc⟩
  · rcases hc.variant with hv | hv | hv <;> simpa [bhrWidth, asPAp, hv] using hb
  · rw [hc.indexWidth_eq]; exact hbank
  · rw [hc.keyWidth_eq]; exact hpht

/-- R106 (b): the hash of an address is the address. -/
theorem FullWidth.hash_eq (hl : legal s.cfg = true) (ha : addr.length = s.cfg.A) :
    hashFold addr s.cfg.K = some addr := by
  rw [hc.keepsAll, ← ha]
  exact hashFold_full_width (ha ▸ (legal_iff.1 hl).1.2.2)

/-- R121, R122: the same register and the same key are selected. -/
theorem FullWidth.selects {i : HistIndex} {key : Bits} (hl : legal s.cfg = true) (hs : Selects s addr i key) :
    Selects (asPAp s) addr i key := by
  have hash := hc.hash_eq hl hs.fits
  refine ⟨hs.usable, hs.fits, hs.index ▸ ?_, hc.indexWidth_eq ▸ hs.indexFits, ?_, hc.keyWidth_eq ▸ hs.keyFits⟩
  · rcases hc.variant with hv | hv | hv <;> simp [hidx, asPAp, hv, hash]
  · rw [← hs.keyed, show histBits (asPAp s) i = histBits s i by cases i <;> rfl]
    rcases hc.variant with hv | hv | hv <;> simp [tkey, asPAp, hv, hash]

end FullWidthHash

theorem predicted_asPAp (s : State) (i : HistIndex) (key : Bits) :
    predicted (asPAp s) i key = asPAp (predicted s i key) := by cases i <;> rfl

theorem updated_asPAp (s : State) (i : HistIndex) (key : Bits) (actual : BranchResult) :
    updated (asPAp s) i key actual = asPAp (updated s i key actual) := by cases i <;> rfl

/-- R150.2: an operation that checks `FAILED` and the width of its address first, and then does the same in both
instances where both select the same register and entry, behaves alike in both. -/
theorem onVariant_asPAp {s : State} {addr : Bits} {op : State → Except Stop (State × Response)} (hw : s.Wf)
    (hc : FullWidth s.cfg) (hfailed : ∀ t : State, t.failed = true → op t = .error (.violation .failedEarlier))
    (hwidth : ∀ t : State, t.failed = false → addr.length ≠ t.cfg.A → op t = .error (.violation .addrWidth))
    (hanswers : ∀ i key, Selects s addr i key → Selects (asPAp s) addr i key →
      ∃ u r, op s = .ok (u, r) ∧ op (asPAp s) = .ok (asPAp u, r)) :
    ∃ u, onVariant s.cfg.variant s op = .next u ∧ onVariant .PAp (asPAp s) op = .next (asPAp u) := by
  rw [onVariant_run hw.1 rfl, onVariant_run (v := .PAp) (hc.asPAp_wf hw).1 rfl]
  by_cases hf : s.failed = true
  · exact ⟨_, by rw [hfailed s hf]; rfl, by rw [hfailed (asPAp s) hf]; rfl⟩
  rw [Bool.not_eq_true] at hf
  by_cases ha : addr.length = s.cfg.A
  · obtain ⟨i, key, hs, -⟩ := selects_exists hw hf ha
    obtain ⟨u, r, hu, hu'⟩ := hanswers i key hs (hc.selects hw.1 hs)
    exact ⟨_, by rw [hu]; rfl, by rw [hu']; rfl⟩
  · exact ⟨_, by rw [hwidth s hf ha]; rfl, by rw [hwidth (asPAp s) hf ha]; rfl⟩

/-- Settles O57: a hash of full width is the identity, so the instance of PAp selects the same register and entry. -/
theorem fullWidthFoldIsPAp : Obligations.FullWidthFoldIsPAp := by
  rintro s v addr actual hw rfl hv hk
  have hc : FullWidth s.cfg := ⟨hv, hk⟩
  have hw' := hc.asPAp_wf hw
  rw [exec_predictInstr, exec_updateInstr]
  constructor
  · refine onVariant_asPAp hw hc (fun _ => predict_failed addr) (fun _ => predict_wrong_width)
      fun i key hs hs' => ⟨_, _, predict_answers hw hs, ?_⟩
    rw [predict_answers hw' hs', predicted_asPAp]
    rfl
  · refine onVariant_asPAp hw hc (fun _ => update_failed addr actual) (fun _ => update_wrong_width actual)
      fun i key hs hs' => ⟨_, _, update_answers actual hw hs, ?_⟩
    rw [update_answers actual hw' hs', updated_asPAp]

end Sys2Proof.Machine
end

section
/-! Proofs of the statements of spec/42_engine.md: the addressing policies, what PREDICT leaves unchanged, that the step
is total, and which histories and keys an UPDATE reaches. -/

namespace Sys2Proof.Machine

/-! ### The addressing policies -/

/-- Settles O27: the policies by the variant, the width of the history by the invariant. -/
theorem addressingPolicies : Obligations.AddressingPolicies := by
  refine ⟨fun s i => ⟨rfl, rfl⟩, fun s s' addr h i hw hi hr => ?_, fun cfg addr h => ⟨fun hv => ?gag, fun hv => ?pap,
    fun g hg => ⟨hashFold_length hg, fun hv => ?pas, fun hv => ?sap, fun hv => ?sas⟩⟩⟩
  case gag => exact ⟨hidx_of_gag addr hv, tkey_of_gag addr h hv⟩
  case pap => simp [hidx, tkey, hv]
  case pas | sap | sas => simp [hidx, tkey, hv, hg]
  · obtain ⟨-, rfl, -⟩ := histRead_eq_ok.1 hr
    exact histBits_length hw fun hx => variant_of_hidx_global (hx ▸ hi)

/-! ### What PREDICT leaves unchanged -/

/-- R37, R88, R128: `t'` keeps every entry that is present in `t`, and what it adds holds the default `d`. -/
abbrev AddsOnlyDefault (d : Bits) (t t' : Table) : Prop :=
  (∀ k w, tableGet t k = some w → tableGet t' k = some w) ∧
    ∀ k, tableGet t k = none → tableGet t' k = none ∨ tableGet t' k = some d

theorem addsOnlyDefault_refl (d : Bits) (t : Table) : AddsOnlyDefault d t t := ⟨fun _ _ h => h, fun _ h => .inl h⟩

theorem addsOnlyDefault_putIfAbsent (t : Table) (k d : Bits) : AddsOnlyDefault d t (tablePutIfAbsent t k d) := by
  refine ⟨fun k' w h => ?present, fun k' h => ?absent⟩ <;> rw [tableGet_putIfAbsent] <;> split
  case present.isTrue hk => subst hk; simp [h]
  case present.isFalse => exact h
  case absent.isTrue hk => subst hk; simp [h]
  case absent.isFalse => exact .inl h

theorem tableGet_putIfAbsent_other (t : Table) {k k' : Bits} (d : Bits) (h : k' ≠ k) :
    tableGet (tablePutIfAbsent t k d) k' = tableGet t k' := by rw [tableGet_putIfAbsent, if_neg h]

/-- R82: a read of the history adds at most a cleared register to the bank. -/
theorem addsOnlyDefault_touchHist (s : State) (i : HistIndex) :
    AddsOnlyDefault (zeros s.cfg.H) s.bank (touchHist s i).bank := by
  cases i with
  | global => exact addsOnlyDefault_refl _ _
  | entry j => exact addsOnlyDefault_putIfAbsent _ j _

/-- R82: a read of the history leaves every register of the bank that it does not select. -/
theorem tableGet_bank_touchHist_other {s : State} {i : HistIndex} {j : Bits} (h : i ≠ .entry j) :
    tableGet (touchHist s i).bank j = tableGet s.bank j := by
  cases i with
  | global => rfl
  | entry x => exact tableGet_putIfAbsent_other _ _ fun hjx => h (by rw [hjx])

/-- Settles O44: a violation changes `FAILED` only, and PREDICT adds a default at most at the register and the entry it
selects. -/
theorem predictFrame : Obligations.PredictFrame := by
  intro v addr s t h
  obtain ⟨c, rfl⟩ | ⟨x, key, hs, rfl⟩ := exec_predictInstr_eq_next h
  · obtain ⟨hbank, hbankNew⟩ := addsOnlyDefault_refl (zeros s.cfg.H) s.bank
    obtain ⟨hpht, hphtNew⟩ := addsOnlyDefault_refl (zeros s.cfg.S) s.pht
    exact ⟨rfl, rfl, rfl, .inr ⟨rfl, rfl⟩, fun _ _ => rfl, hbank, hbankNew, fun _ _ _ _ => rfl, hpht, hphtNew⟩
  obtain ⟨hbank, hbankNew⟩ := addsOnlyDefault_touchHist s x
  obtain ⟨hpht, hphtNew⟩ := addsOnlyDefault_putIfAbsent s.pht key (zeros s.cfg.S)
  refine ⟨predicted_cfg s x key, predicted_bhr s x key, predicted_input s x key, .inl (predicted_failed s x key),
    fun j hj => ?bank, hbank, hbankNew, fun i k hi hk => ?pht, hpht, hphtNew⟩
  case bank =>
    have hne : x ≠ .entry j := by rintro rfl; exact hj hs.index
    exact tableGet_bank_touchHist_other hne
  case pht =>
    obtain rfl : x = i := Option.some.inj (hs.index.symm.trans hi)
    have hne : k ≠ key := by rintro rfl; exact hk hs.keyed
    exact tableGet_putIfAbsent_other _ _ hne

/-! ### The step is total -/

/-- R120, R164: an action that answers or raises a violation, but is never refused. -/
def NeverRefused {α : Type} (x : Except Stop α) : Prop := ∀ r, x ≠ .error (.refusal r)

theorem neverRefused_ok {α : Type} (a : α) : NeverRefused (.ok a) := nofun

theorem neverRefused_violation {α : Type} (c : ViolationCode) : NeverRefused (α := α) (.error (.violation c)) := nofun

/-- The shape of every check and of every storage action: an answer where the widths fit, and else a violation. -/
theorem neverRefused_ite {α : Type} (p : Prop) [Decidable p] (a : α) (c : ViolationCode) :
    NeverRefused (if p then .ok a else .error (.violation c)) := by
  split
  · exact neverRefused_ok a
  · exact neverRefused_violation c

/-- An action followed by another is never refused if neither is. -/
theorem NeverRefused.bind {α β : Type} {x : Except Stop α} {f : α → Except Stop β} (hx : NeverRefused x)
    (hf : ∀ a, x = .ok a → NeverRefused (f a)) : NeverRefused (x >>= f) := by
  cases x with
  | ok a => exact hf a rfl
  | error e => exact fun r he => hx r (by cases he; rfl)

/-- R107: a function called in its domain is not refused. -/
theorem neverRefused_demand {α : Type} {o : Option α} {a : α} (h : o = some a) : NeverRefused (demand o) := by
  subst h
  exact neverRefused_ok a

theorem neverRefused_checkUsable (s : State) : NeverRefused (checkUsable s) := by
  unfold checkUsable
  split
  · exact neverRefused_violation _
  · exact neverRefused_ok _

theorem neverRefused_checkAddr (addr : Bits) (s : State) : NeverRefused (checkAddr addr s) := neverRefused_ite _ _ _

theorem neverRefused_loadReg (len : Nat) (v : Bits) : NeverRefused (loadReg len v) := neverRefused_ite _ _ _

theorem neverRefused_bankRead (i : Bits) (s : State) : NeverRefused (bankRead i s) := neverRefused_ite _ _ _

theorem neverRefused_bankWrite (i v : Bits) (s : State) : NeverRefused (bankWrite i v s) := neverRefused_ite _ _ _

theorem neverRefused_phtGet (k : Bits) (s : State) : NeverRefused (phtGet k s) := neverRefused_ite _ _ _

theorem neverRefused_phtPut (k v : Bits) (s : State) : NeverRefused (phtPut k v s) := neverRefused_ite _ _ _

theorem neverRefused_phtPutIfAbsent (k d : Bits) (s : State) : NeverRefused (phtPutIfAbsent k d s) :=
  neverRefused_ite _ _ _

theorem neverRefused_phtGetOrZero (k : Bits) (s : State) : NeverRefused (phtGetOrZero k s) :=
  .bind (neverRefused_phtGet k s) fun _ _ => neverRefused_ok _

theorem neverRefused_phtGetOrInsertDefault (k : Bits) (s : State) : NeverRefused (phtGetOrInsertDefault k s) :=
  .bind (neverRefused_phtPutIfAbsent k _ s) fun s' _ =>
    .bind (neverRefused_phtGetOrZero k s') fun _ _ => neverRefused_ok _

theorem neverRefused_histRead (i : HistIndex) (s : State) : NeverRefused (histRead i s) := by
  cases i with
  | global => exact neverRefused_ok _
  | entry j => exact neverRefused_bankRead j s

theorem neverRefused_histWrite (i : HistIndex) (v : Bits) (s : State) : NeverRefused (histWrite i v s) := by
  cases i with
  | global => exact neverRefused_ok _
  | entry j => exact neverRefused_bankWrite j v s

/-- R107, R122: an admitted instance has a key for every address of its width, whatever the history. -/
theorem tkey_total {cfg : Config} {addr : Bits} (hl : legal cfg = true) (ha : addr.length = cfg.A) (h : Bits) :
    ∃ k, tkey cfg addr h = some k := by
  obtain ⟨k, hk, -⟩ := tkey_exists hl ha (zeros_length cfg.H)
  cases hv : cfg.variant <;> simp only [tkey, hv, Option.map_eq_some_iff] at hk ⊢
  case GAg | PAp | SAp => exact ⟨_, rfl⟩
  case PAs | SAs =>
    obtain ⟨g, hg, -⟩ := hk
    exact ⟨_, g, hg, rfl⟩

/-- R123, R124, R125: PREDICT and UPDATE begin alike. After the two checks an admitted instance has an index, whose
history it reads, and then a key, so that only what follows could be refused. -/
theorem neverRefused_selection {α : Type} {s : State} {addr : Bits} (hl : legal s.cfg = true)
    {rest : HistIndex → Bits × State → Except Stop α}
    (hrest : ∀ i h key, tkey (touchHist s i).cfg addr h = some key → NeverRefused (rest i (h, touchHist s i))) :
    NeverRefused (do
      checkUsable s
      checkAddr addr s
      let i ← demand (hidx s.cfg addr)
      let read ← histRead i s
      rest i read) := by
  refine .bind (neverRefused_checkUsable s) fun _ _ => .bind (neverRefused_checkAddr addr s) fun _ ha => ?_
  have hfits := checkAddr_eq_ok.1 ha
  obtain ⟨i₀, hi₀, -⟩ := hidx_exists hl hfits
  refine .bind (neverRefused_demand hi₀) fun i _ => .bind (neverRefused_histRead i s) ?_
  rintro ⟨h, s'⟩ hr
  obtain ⟨-, -, rfl⟩ := histRead_eq_ok.1 hr
  obtain ⟨key, hkey⟩ := tkey_total hl hfits h
  exact hrest i h key (by rwa [touchHist_cfg])

/-- R120, R124: on an admitted instance PREDICT answers or raises a violation. -/
theorem neverRefused_predict {s : State} (addr : Bits) (hl : legal s.cfg = true) : NeverRefused (predict addr s) := by
  unfold predict
  refine neverRefused_selection hl fun i _ _ hkey => .bind (neverRefused_demand hkey) fun key _ => ?_
  exact .bind (neverRefused_phtGetOrInsertDefault key _) fun _ _ =>
    .bind (neverRefused_loadReg _ _) fun _ _ => neverRefused_ok _

/-- R120, R125: on an admitted instance UPDATE answers or raises a violation. -/
theorem neverRefused_update {s : State} (addr : Bits) (actual : BranchResult) (hl : legal s.cfg = true) :
    NeverRefused (update addr actual s) := by
  unfold update
  refine neverRefused_selection hl fun i _ _ hkey => .bind (neverRefused_demand hkey) fun key _ => ?_
  exact .bind (neverRefused_phtGetOrZero key _) fun _ _ => .bind (neverRefused_phtPut key _ _) fun _ _ =>
    .bind (neverRefused_histWrite i _ _) fun _ _ => neverRefused_ok _

/-- R164: an operation that is never refused has a next state, that of its effect or of its violation. -/
theorem finish_total {x : Except Stop (State × Response)} (hx : NeverRefused x) (s : State) :
    ∃ t, finish s x = .next t := by
  match x with
  | .ok (s', r) => exact ⟨_, rfl⟩
  | .error (.violation c) => exact ⟨_, rfl⟩
  | .error (.refusal r) => exact absurd rfl (hx r)

/-- R120: on an admitted instance every row of its variant has a next state. -/
theorem exec_selectRow_total {s : State} (hl : legal s.cfg = true) (addr : Bits) (actual op1 op0 : Bit) :
    ∃ t, exec (selectRow s.cfg.variant addr actual op1 op0) s = .next t := by
  match op1, op0 with
  | false, false => exact ⟨_, exec_nop s⟩
  | false, true =>
    rw [selectRow, exec_predictInstr, onVariant_run hl rfl]
    exact finish_total (neverRefused_predict addr hl) s
  | true, false =>
    rw [selectRow, exec_updateInstr, onVariant_run hl rfl]
    exact finish_total (neverRefused_update addr _ hl) s
  | true, true => exact ⟨_, exec_monitor_next hl⟩

/-- Settles O49: every form of edge has a next state, and a word of at least three bits carries a row of the instance's
variant, which is never refused. -/
theorem stepIsTotal : Obligations.StepIsTotal := by
  intro s hl hlen
  cases hin : s.input with
  | nil => exact ⟨_, step_of_no_edge hin⟩
  | cons edge later =>
    rw [hin] at hlen
    cases hr : edge.rst with
    | true => exact ⟨_, step_of_reset hin hr⟩
    | false =>
      cases hv : edge.cmdValid with
      | false => exact ⟨_, step_of_idle_edge hin hr hv⟩
      | true =>
        obtain ⟨n, hn⟩ := Nat.exists_eq_add_of_le' (hlen edge List.mem_cons_self)
        obtain ⟨addr, actual, op1, op0, hcmd, -⟩ := cmdWord_exists hn
        have hd : decode s.cfg edge.cmd = .ok (selectRow s.cfg.variant addr actual op1 op0) := by
          rw [hcmd, decode_cmdWord]
        rw [step_of_command hin hr hv hd]
        exact exec_selectRow_total (s := s.setInput later) hl addr actual op1 op0

/-! ### Which histories and keys an UPDATE reaches -/

/-- Settles O53: UPDATE shifts its outcome into the register it selects, and the key of an address depends on the state
through its history only. -/
theorem otherRegistersPairsUndisturbed : Obligations.OtherRegistersPairsUndisturbed := by
  rintro s _ b actual ⟨hw, hf⟩ rfl hb
  obtain ⟨x, key, hs, -⟩ := selects_exists hw hf hb
  refine ⟨_, exec_update_next actual hw hs, fun a i _ => ?_⟩
  rw [hs.index, histBits_setResp, histBits_updated, State.setResp_cfg, updated_cfg]
  refine ⟨fun hne => ?other, fun heq => ?same⟩
  case other =>
    have hix : i ≠ x := by rintro rfl; exact hne rfl
    rw [if_neg hix]
    exact ⟨rfl, rfl⟩
  case same =>
    obtain rfl : x = i := Option.some.inj heq
    rw [if_pos rfl]

/-- Settles O54: the UPDATE leaves a Good state whose entry at the key is the stepped counter, and the PREDICT loads the
entry it selects. -/
theorem updateTrainsItsKey : Obligations.UpdateTrainsItsKey := by
  rintro s _ addr addr' key i j actual hg rfl ha ha' hi hk hj
  have hx := exec_update_next actual hg.1 (.of_index hg ha hi hk)
  refine ⟨_, hx, fun hk' => ?_⟩
  have ht := exec_keeps_good hg hx rfl
  have hcfg := (exec_retains hx).cfg
  rw [← hcfg] at ha' hj hk' ⊢
  refine ⟨_, exec_predict_next ht.1 (.of_index ht ha' hj hk'), ?_, rfl⟩
  simp [readOr_put]

end Sys2Proof.Machine
end

section
/-! Proofs of the statements of spec/43_variants.md: the effect of PREDICT and UPDATE in each variant, and the variants
as one GAg predictor per set or per address. -/

namespace Sys2Proof.Machine

/-! ### The violations of PREDICT and UPDATE -/

/-- R165: with V0 the flag is 1 already. -/
theorem raise_of_failed {s : State} (c : ViolationCode) (hf : s.failed = true) :
    raise c s = { s with resp := .violation c } :=
  congrArg (fun b => { s with failed := b, resp := .violation c }) hf.symm

section Violations

variable {s : State} {v : Variant} {addr : Bits} (hl : legal s.cfg = true) (hv : s.cfg.variant = v)

include hl hv

/-- R161, R165: an operation that checks `FAILED` and then the width of its address is V0 on a failed instance, and V1
on a usable one where the address has another width. -/
theorem onVariant_violations {op : State → Except Stop (State × Response)}
    (hfailed : s.failed = true → op s = .error (.violation .failedEarlier))
    (hwidth : s.failed = false → addr.length ≠ s.cfg.A → op s = .error (.violation .addrWidth)) :
    (s.failed = true → onVariant v s op = .next { s with resp := .violation .failedEarlier }) ∧
    (s.failed = false → addr.length ≠ s.cfg.A →
      onVariant v s op = .next { s with failed := true, resp := .violation .addrWidth }) := by
  rw [onVariant_run hl hv]
  refine ⟨fun hf => ?_, fun hf ha => ?_⟩
  · rw [hfailed hf, finish, raise_of_failed _ hf]
  · rw [hwidth hf ha]
    rfl

theorem exec_predict_violations :
    (s.failed = true → exec (predictInstr v addr) s = .next { s with resp := .violation .failedEarlier }) ∧
    (s.failed = false → addr.length ≠ s.cfg.A →
      exec (predictInstr v addr) s = .next { s with failed := true, resp := .violation .addrWidth }) := by
  rw [exec_predictInstr]
  exact onVariant_violations hl hv (predict_failed addr) predict_wrong_width

theorem exec_update_violations {actual : BranchResult} :
    (s.failed = true → exec (updateInstr v addr actual) s = .next { s with resp := .violation .failedEarlier }) ∧
    (s.failed = false → addr.length ≠ s.cfg.A →
      exec (updateInstr v addr actual) s = .next { s with failed := true, resp := .violation .addrWidth }) := by
  rw [exec_updateInstr]
  exact onVariant_violations hl hv (update_failed addr actual) (update_wrong_width actual)

end Violations

/-! ### The effect of PREDICT and UPDATE -/

section Effects

variable {s : State} {v : Variant} {addr : Bits}

/-- R124: PREDICT on a Good instance, from the index and the key of its address. -/
theorem exec_predict_of_index {i : HistIndex} {key : Bits} (hs : s.Good) (hv : s.cfg.variant = v)
    (ha : addr.length = s.cfg.A) (hi : hidx s.cfg addr = some i) (hk : tkey s.cfg addr (histBits s i) = some key) :
    exec (predictInstr v addr) s =
      .next ((predicted s i key).setResp (.prediction (predictionOf (readOr s.cfg.S s.pht key)))) :=
  hv ▸ exec_predict_next hs.1 (.of_index hs ha hi hk)

/-- R125: UPDATE on a Good instance, from the index and the key of its address. -/
theorem exec_update_of_index {i : HistIndex} {key : Bits} (actual : BranchResult) (hs : s.Good)
    (hv : s.cfg.variant = v) (ha : addr.length = s.cfg.A) (hi : hidx s.cfg addr = some i)
    (hk : tkey s.cfg addr (histBits s i) = some key) :
    exec (updateInstr v addr actual) s = .next ((updated s i key actual).setResp .none) :=
  hv ▸ exec_update_next actual hs.1 (.of_index hs ha hi hk)

/-- R121, R122: in a variant with a bank, the register `j` and the key component `p` of an address. -/
structure Addressing (cfg : Config) (addr j p : Bits) : Prop where
  register : hidx cfg addr = some (.entry j)
  keyed : ∀ h, tkey cfg addr h = some (p ++ h)

theorem addressing_pap {cfg : Config} (addr : Bits) (hv : cfg.variant = .PAp) : Addressing cfg addr addr addr :=
  ⟨by rw [hidx, hv], fun h => by rw [tkey, hv]⟩

theorem addressing_pas {cfg : Config} {addr g : Bits} (hv : cfg.variant = .PAs) (hg : hashFold addr cfg.K = some g) :
    Addressing cfg addr addr g :=
  ⟨by rw [hidx, hv], fun h => by rw [tkey, hv, hg]; rfl⟩

theorem addressing_sap {cfg : Config} {addr g : Bits} (hv : cfg.variant = .SAp) (hg : hashFold addr cfg.K = some g) :
    Addressing cfg addr g addr :=
  ⟨by rw [hidx, hv, hg]; rfl, fun h => by rw [tkey, hv]⟩

theorem addressing_sas {cfg : Config} {addr g : Bits} (hv : cfg.variant = .SAs) (hg : hashFold addr cfg.K = some g) :
    Addressing cfg addr g g :=
  ⟨by rw [hidx, hv, hg]; rfl, fun h => by rw [tkey, hv, hg]; rfl⟩

/-- R107: an admitted instance that hashes has a hash of every address of its width. -/
theorem hash_exists {cfg : Config} (hl : legal cfg = true) (hv : cfg.variant = v) (hashed : hashes v = true)
    (ha : addr.length = cfg.A) : ∃ g, hashFold addr cfg.K = some g := by
  obtain ⟨-, hk⟩ := legal_iff.1 hl
  rw [hv, if_pos hashed] at hk
  exact ⟨_, hashFold_of_domain hk.1 (ha ▸ hk.2)⟩

/-- R124: PREDICT of a variant with a bank reads the register of the address and the entry at its key component
and that history, and makes both present. -/
theorem Addressing.exec_predict {j p : Bits} (hp : Addressing s.cfg addr j p) (hs : s.Good) (hv : s.cfg.variant = v)
    (ha : addr.length = s.cfg.A) :
    ∀ h key, h = readOr s.cfg.H s.bank j → key = p ++ h →
      exec (predictInstr v addr) s = .next { s with
        bank := tablePutIfAbsent s.bank j (zeros s.cfg.H)
        pht := tablePutIfAbsent s.pht key (zeros s.cfg.S)
        sc := readOr s.cfg.S s.pht key
        resp := .prediction (predictionOf (readOr s.cfg.S s.pht key)) } := by
  rintro _ _ rfl rfl
  exact exec_predict_of_index hs hv ha hp.register (hp.keyed _)

/-- R125: UPDATE of a variant with a bank steps the counter at the key component and the history before the shift, and
shifts the register it read. -/
theorem Addressing.exec_update {j p : Bits} (hp : Addressing s.cfg addr j p) (actual : BranchResult) (hs : s.Good)
    (hv : s.cfg.variant = v) (ha : addr.length = s.cfg.A) :
    ∀ h key, h = readOr s.cfg.H s.bank j → key = p ++ h →
      exec (updateInstr v addr actual) s = .next { s with
        pht := tablePut s.pht key (count (readOr s.cfg.S s.pht key) (decide (actual = .taken)))
        bank := tablePut s.bank j (shiftInsert h (bitOf actual))
        resp := .none } := by
  rintro _ _ rfl rfl
  exact exec_update_of_index actual hs hv ha hp.register (hp.keyed _)

end Effects

/-- Settles O30: the one register is the index and its history is the key. -/
theorem predictGAgEffect : Obligations.PredictGAgEffect := fun _ addr hw hv =>
  ⟨fun hf ha => exec_predict_of_index ⟨hw, hf⟩ hv ha (hidx_of_gag addr hv) (tkey_of_gag addr _ hv),
    exec_predict_violations hw.1 hv⟩

/-- Settles O31: as PREDICT selects, with the register shifted. -/
theorem updateGAgEffect : Obligations.UpdateGAgEffect := fun _ addr actual hw hv =>
  ⟨fun hf ha => exec_update_of_index actual ⟨hw, hf⟩ hv ha (hidx_of_gag addr hv) (tkey_of_gag addr _ hv),
    exec_update_violations hw.1 hv⟩

/-- Settles O32: register and key component are the address. -/
theorem predictPApEffect : Obligations.PredictPApEffect := fun _ addr hw hv =>
  ⟨fun hf => (addressing_pap addr hv).exec_predict ⟨hw, hf⟩ hv, exec_predict_violations hw.1 hv⟩

/-- Settles O33: register and key component are the address. -/
theorem updatePApEffect : Obligations.UpdatePApEffect := fun _ addr actual hw hv =>
  ⟨fun hf => (addressing_pap addr hv).exec_update actual ⟨hw, hf⟩ hv, exec_update_violations hw.1 hv⟩

/-- Settles O34: the register is the address's, the key component its hash. -/
theorem predictPAsEffect : Obligations.PredictPAsEffect := by
  refine fun s addr hw hv => ⟨fun hf ha => ?_, exec_predict_violations hw.1 hv⟩
  obtain ⟨g, hg⟩ := hash_exists hw.1 hv rfl ha
  exact ⟨g, hg, (addressing_pas hv hg).exec_predict ⟨hw, hf⟩ hv ha⟩

/-- Settles O35: the register is the address's, the key component its hash. -/
theorem updatePAsEffect : Obligations.UpdatePAsEffect := by
  refine fun s addr actual hw hv => ⟨fun hf ha => ?_, exec_update_violations hw.1 hv⟩
  obtain ⟨g, hg⟩ := hash_exists hw.1 hv rfl ha
  exact ⟨g, hg, (addressing_pas hv hg).exec_update actual ⟨hw, hf⟩ hv ha⟩

/-- Settles O36: the register is the hash's, the key component the address. -/
theorem predictSApEffect : Obligations.PredictSApEffect := by
  refine fun s addr hw hv => ⟨fun hf ha => ?_, exec_predict_violations hw.1 hv⟩
  obtain ⟨g, hg⟩ := hash_exists hw.1 hv rfl ha
  exact ⟨g, hg, (addressing_sap hv hg).exec_predict ⟨hw, hf⟩ hv ha⟩

/-- Settles O37: the register is the hash's, the key component the address. -/
theorem updateSApEffect : Obligations.UpdateSApEffect := by
  refine fun s addr actual hw hv => ⟨fun hf ha => ?_, exec_update_violations hw.1 hv⟩
  obtain ⟨g, hg⟩ := hash_exists hw.1 hv rfl ha
  exact ⟨g, hg, (addressing_sap hv hg).exec_update actual ⟨hw, hf⟩ hv ha⟩

/-- Settles O38: register and key component are the hash. -/
theorem predictSAsEffect : Obligations.PredictSAsEffect := by
  refine fun s addr hw hv => ⟨fun hf ha => ?_, exec_predict_violations hw.1 hv⟩
  obtain ⟨g, hg⟩ := hash_exists hw.1 hv rfl ha
  exact ⟨g, hg, (addressing_sas hv hg).exec_predict ⟨hw, hf⟩ hv ha⟩

/-- Settles O39: register and key component are the hash. -/
theorem updateSAsEffect : Obligations.UpdateSAsEffect := by
  refine fun s addr actual hw hv => ⟨fun hf ha => ?_, exec_update_violations hw.1 hv⟩
  obtain ⟨g, hg⟩ := hash_exists hw.1 hv rfl ha
  exact ⟨g, hg, (addressing_sas hv hg).exec_update actual ⟨hw, hf⟩ hv ha⟩

/-! ### One address as a GAg predictor -/

/-- R122: the keys of one address differ exactly where the histories do. -/
theorem tkey_eq_iff_of_same_address {cfg : Config} {addr h h' k k' : Bits} (hk : tkey cfg addr h = some k)
    (hk' : tkey cfg addr h' = some k') : k = k' ↔ h = h' := by
  cases hv : cfg.variant <;> simp only [tkey, hv, Option.map_eq_some_iff, Option.some.injEq] at hk hk'
  case GAg => rw [← hk, ← hk']
  case PAp | SAp => rw [← hk, ← hk', List.append_cancel_left_eq]
  case PAs | SAs =>
    obtain ⟨g, hg, rfl⟩ := hk
    obtain ⟨g', hg', rfl⟩ := hk'
    obtain rfl : g = g' := Option.some.inj (hg.symm.trans hg')
    rw [List.append_cancel_left_eq]

/-- R88: an addition at entries that read alike leaves alike what read alike. -/
theorem tableGet_putIfAbsent_congr {t t' : Table} {k k' x x' : Bits} (d : Bits) (hx : x' = k' ↔ x = k)
    (hk : tableGet t k = tableGet t' k') (h : tableGet t x = tableGet t' x') :
    tableGet (tablePutIfAbsent t k d) x = tableGet (tablePutIfAbsent t' k' d) x' := by
  simp only [tableGet_putIfAbsent, hx, hk, h]

/-- R87: a write of one value leaves alike what read alike. -/
theorem tableGet_put_congr {t t' : Table} {k k' x x' : Bits} (w : Bits) (hx : x' = k' ↔ x = k)
    (h : tableGet t x = tableGet t' x') :
    tableGet (tablePut t k w) x = tableGet (tablePut t' k' w) x' := by
  simp only [tableGet_put, hx, h]

/-- R150.5: `t`, read as a GAg instance, holds the history of the index `i` of `s` and, under each history, the entry
that `addr` selects in `s` with it. -/
structure MirrorsAddress (s t : State) (addr : Bits) (i : HistIndex) : Prop where
  counterWidth : t.cfg.S = s.cfg.S
  history : t.bhr = histBits s i
  entry : ∀ h key, h.length = s.cfg.H → tkey s.cfg addr h = some key → tableGet t.pht h = tableGet s.pht key

section Mirrors

variable {s t : State} {addr key : Bits} {i : HistIndex}

theorem MirrorsAddress.setResp (m : MirrorsAddress s t addr i) (r r' : Response) :
    MirrorsAddress (s.setResp r) (t.setResp r') addr i :=
  ⟨m.counterWidth, by rw [histBits_setResp]; exact m.history, m.entry⟩

variable (m : MirrorsAddress s t addr i) (hh : (histBits s i).length = s.cfg.H)
  (hk : tkey s.cfg addr (histBits s i) = some key)

include m hh hk

theorem MirrorsAddress.selected_entry : tableGet t.pht t.bhr = tableGet s.pht key :=
  m.history ▸ m.entry _ key hh hk

theorem MirrorsAddress.selected_counter : readOr t.cfg.S t.pht t.bhr = readOr s.cfg.S s.pht key := by
  rw [readOr, readOr, m.selected_entry hh hk, m.counterWidth]

/-- R150.5: PREDICT in both keeps the relation, since it adds the entries that correspond. -/
theorem MirrorsAddress.predicted :
    MirrorsAddress (predicted s i key) (predicted t .global t.bhr) addr i := by
  refine ⟨by simpa using m.counterWidth, by simpa [histBits_predicted] using m.history, ?_⟩
  simp only [predicted_cfg, predicted_pht, m.counterWidth]
  intro h k hl hk'
  exact tableGet_putIfAbsent_congr _ (m.history ▸ tkey_eq_iff_of_same_address hk' hk) (m.selected_entry hh hk)
    (m.entry h k hl hk')

/-- R150.5: UPDATE in both keeps the relation, since it writes the entries that correspond with one value and shifts
one outcome into both histories. -/
theorem MirrorsAddress.updated (actual : BranchResult) :
    MirrorsAddress (updated s i key actual) (updated t .global t.bhr actual) addr i := by
  refine ⟨by simpa using m.counterWidth, ?_, ?_⟩
  · rw [histBits_updated, if_pos rfl, ← m.history]
    rfl
  simp only [updated_cfg, updated_pht, m.selected_counter hh hk]
  intro h k hl hk'
  exact tableGet_put_congr _ (m.history ▸ tkey_eq_iff_of_same_address hk' hk) (m.entry h k hl hk')

end Mirrors

/-- Settles O60: the GAg instance selects the entry that corresponds to the one `addr` selects, so both operations
respond alike and keep the relation. -/
theorem singleAddressIsGAg : Obligations.SingleAddressIsGAg := by
  intro s t v addr a' i actual hs ht hv hvt _ hS ha ha' hi hist hentry
  have m : MirrorsAddress s t addr i := ⟨hS, hist, hentry⟩
  have hh := histBits_length hs.1 (i := i) (by rintro rfl; exact variant_of_hidx_global hi)
  obtain ⟨key, hk, -⟩ := tkey_exists hs.1.1 ha hh
  have hit := hidx_of_gag a' hvt
  have hkt := tkey_of_gag a' t.bhr hvt
  have mp := (m.predicted hh hk).setResp
  have mu := (m.updated hh hk actual).setResp
  refine ⟨_, _, _, _, exec_predict_of_index hs hv ha hi hk, exec_update_of_index actual hs hv ha hi hk,
    exec_predict_of_index ht hvt ha' hit hkt, exec_update_of_index actual ht hvt ha' hit hkt, ?_, rfl,
    (mp _ _).history, (mu _ _).history, fun h k hl hk' => ⟨?_, ?_⟩⟩
  · rw [State.setResp_resp, State.setResp_resp, m.selected_counter hh hk]
  · exact (mp _ _).entry h k (by simpa using hl) (by simpa using hk')
  · exact (mu _ _).entry h k (by simpa using hl) (by simpa using hk')

/-! ### One key component of many as a GAg predictor -/

/-- R150.3, R150.4: `t`, read as a GAg instance, holds the history of the register `g` of `s` and the entries of `s`
under the key component `g`, without the component. `H` is the number of history bits. -/
structure MirrorsComponent (H : Nat) (g : Bits) (s t : State) : Prop where
  history : t.bhr = readOr H s.bank g
  entry : ∀ h : Bits, h.length = H → tableGet t.pht h = tableGet s.pht (g ++ h)

section Component

variable {s t s₁ s₂ : State} {v : Variant} {g p addr a' : Bits} {actual : BranchResult}

/-- R150.3, R150.4: on an address of the register and key component `g`, PREDICT and UPDATE respond as those of the GAg
instance do, and keep the relation. -/
theorem MirrorsComponent.same_component (m : MirrorsComponent s.cfg.H g s t) (hp : Addressing s.cfg addr g g)
    (hs : s.Good) (ht : t.Good) (hv : s.cfg.variant = v) (hvt : t.cfg.variant = .GAg) (hH : t.cfg.H = s.cfg.H)
    (hS : t.cfg.S = s.cfg.S) (ha : addr.length = s.cfg.A) (ha' : a'.length = t.cfg.A)
    (h₁ : exec (predictInstr v addr) s = .next s₁) (h₂ : exec (updateInstr v addr actual) s = .next s₂) :
    ∃ t₁ t₂, exec (.predictGAg a') t = .next t₁ ∧ exec (.updateGAg a' actual) t = .next t₂ ∧
      t₁.resp = s₁.resp ∧ t₁.bhr = readOr s.cfg.H s₁.bank g ∧
      (∀ h : Bits, h.length = s.cfg.H → tableGet t₁.pht h = tableGet s₁.pht (g ++ h)) ∧
      t₂.resp = s₂.resp ∧ t₂.bhr = readOr s.cfg.H s₂.bank g ∧
      (∀ h : Bits, h.length = s.cfg.H → tableGet t₂.pht h = tableGet s₂.pht (g ++ h)) := by
  have hkey : ∀ h key : Bits, h.length = s.cfg.H → tkey s.cfg addr h = some key →
      tableGet t.pht h = tableGet s.pht key := by
    intro h key hl hk
    obtain rfl : g ++ h = key := Option.some.inj ((hp.keyed h).symm.trans hk)
    exact m.entry h hl
  obtain ⟨u₁, u₂, t₁, t₂, hu₁, hu₂, ht₁, ht₂, hr₁, hr₂, hb₁, hb₂, he⟩ :=
    singleAddressIsGAg s t v addr a' (.entry g) actual hs ht hv hvt hH hS ha ha' hp.register m.history hkey
  obtain rfl : s₁ = u₁ := Host.Outcome.next.inj (h₁.symm.trans hu₁)
  obtain rfl : s₂ = u₂ := Host.Outcome.next.inj (h₂.symm.trans hu₂)
  rw [histBits, (exec_retains h₁).cfg] at hb₁
  rw [histBits, (exec_retains h₂).cfg] at hb₂
  exact ⟨t₁, t₂, ht₁, ht₂, hr₁, hb₁, fun h hl => (he h _ hl (hp.keyed h)).1, hr₂, hb₂,
    fun h hl => (he h _ hl (hp.keyed h)).2⟩

/-- R33, R150.3, R150.4: a change of `s` at the register and the key of an address of another component only keeps the
relation with `t` standing still. -/
theorem MirrorsComponent.of_frame {H : Nat} (m : MirrorsComponent H g s t) (hp : Addressing s.cfg addr p p)
    (hne : p ≠ g) (hl : p.length = g.length)
    (hbank : ∀ j, hidx s.cfg addr ≠ some (.entry j) → tableGet s₁.bank j = tableGet s.bank j)
    (hpht : ∀ i k, hidx s.cfg addr = some i → tkey s.cfg addr (histBits s i) ≠ some k →
      tableGet s₁.pht k = tableGet s.pht k) :
    MirrorsComponent H g s₁ t := by
  refine ⟨?_, fun h hh => ?_⟩
  · rw [readOr, hbank g (by simpa [hp.register] using hne)]
    exact m.history
  · have hkey : p ++ histBits s (.entry p) ≠ g ++ h := fun he => hne (List.append_inj_left he hl)
    rw [hpht _ (g ++ h) hp.register (by simpa [hp.keyed] using hkey)]
    exact m.entry h hh

/-- R150.3, R150.4: PREDICT and UPDATE of an address of another component keep the relation with `t` standing still. -/
theorem MirrorsComponent.other_component {H : Nat} (m : MirrorsComponent H g s t) (hp : Addressing s.cfg addr p p)
    (hne : p ≠ g) (hl : p.length = g.length) (h₁ : exec (predictInstr v addr) s = .next s₁)
    (h₂ : exec (updateInstr v addr actual) s = .next s₂) :
    t.bhr = readOr H s₁.bank g ∧ t.bhr = readOr H s₂.bank g ∧
      ∀ h : Bits, h.length = H →
        tableGet t.pht h = tableGet s₁.pht (g ++ h) ∧ tableGet t.pht h = tableGet s₂.pht (g ++ h) := by
  obtain ⟨-, -, -, -, hbank₁, -, -, hpht₁, -⟩ := predictFrame v addr s s₁ h₁
  obtain ⟨-, -, -, -, -, hbank₂, hpht₂⟩ := updateFrame v addr actual s s₂ h₂
  have m₁ := m.of_frame hp hne hl hbank₁ hpht₁
  have m₂ := m.of_frame hp hne hl hbank₂ hpht₂
  exact ⟨m₁.history, m₂.history, fun h hh => ⟨m₁.entry h hh, m₂.entry h hh⟩⟩

end Component

/-- Settles O58: the register and the key component of an address are its hash, which is `g` or another one. -/
theorem sAsIsOneGAgPerSet : Obligations.SAsIsOneGAgPerSet := by
  intro s t g addr a' actual hs ht hv hvt hH hS hg ha ha' hist hentry
  have m : MirrorsComponent s.cfg.H g s t := ⟨hist, hentry⟩
  obtain ⟨p, hash⟩ := hash_exists hs.1.1 hv rfl ha
  have hp := addressing_sas hv hash
  have h₁ := hp.exec_predict hs hv ha _ _ rfl rfl
  have h₂ := hp.exec_update actual hs hv ha _ _ rfl rfl
  rw [hash, Option.some_inj, Ne, Option.some_inj]
  have hpg : p.length = g.length := (hashFold_length hash).trans hg.symm
  refine ⟨_, _, h₁, h₂, ?_, fun hne => m.other_component hp hne hpg h₁ h₂⟩
  rintro rfl
  exact m.same_component hp hs ht hv hvt hH hS ha ha' h₁ h₂

/-- Settles O59: the register and the key component of an address are the address itself, which is `g` or another
one. -/
theorem pApIsOneGAgPerAddress : Obligations.PApIsOneGAgPerAddress := by
  intro s t g addr a' actual hs ht hv hvt hH hS hg ha ha' hist hentry
  have m : MirrorsComponent s.cfg.H g s t := ⟨hist, hentry⟩
  have hp := addressing_pap addr hv
  have h₁ := hp.exec_predict hs hv ha _ _ rfl rfl
  have h₂ := hp.exec_update actual hs hv ha _ _ rfl rfl
  refine ⟨_, _, h₁, h₂, ?_, fun hne => m.other_component hp hne (ha.trans hg.symm) h₁ h₂⟩
  rintro rfl
  exact m.same_component hp hs ht hv hvt hH hS ha ha' h₁ h₂

end Sys2Proof.Machine
end

section
/-! The proof of the statement of spec/60_exceptions.md about a failed instance. -/

namespace Sys2Proof.Machine

/-- Settles O42: PREDICT and UPDATE of a failed instance end at their first check, which looks at no address and raises
V0 over a flag that is 1 already. MONITOR and NOP have no such check, so the snapshot shows that flag. -/
theorem failedInstanceRefuses : Obligations.FailedInstanceRefuses := fun s _ _ _ hl hv hf =>
  ⟨(exec_predict_violations hl hv).1 hf, (exec_update_violations hl hv).1 hf,
    ⟨_, exec_monitor_shows hl hv, hf, rfl, rfl⟩, exec_nop s⟩

end Sys2Proof.Machine
end

section
/-! The proof of the statement about the model's own stops (notes/assumptions/5.md, notes/assumptions/7.md): the command
words the decoder has no operation for, and the instances an operation of one variant does not exist on. -/

namespace Sys2Proof.Machine

/-! ### A command word without its fields -/

/-- R53: the decoder reads an operation only from a word that holds `actual` and `op`. -/
theorem decode_of_short {cfg : Config} {cmd : Bits} (h : cmd.length < 3) :
    decode cfg cmd = .error .shortCommand := by
  unfold decode
  split
  next op0 op1 actual addrRev hrev =>
    have hlen : cmd.length = addrRev.length + 3 := by simpa using congrArg List.length hrev
    omega
  next => rfl

/-- A step at an edge that presents a command is refused when the decoder gives no operation. -/
theorem step_of_undecoded {s : State} {edge : ClockEdge} {later : List ClockEdge}
    (hin : s.input = edge :: later) (hr : edge.rst = false) (hv : edge.cmdValid = true)
    (hd : decode s.cfg edge.cmd = .error .shortCommand) : step s = .refused .shortCommand := by
  simp [step, hin, hr, hv, hd]

/-! ### An instance without the operation -/

/-- R64, R163: an operation of a variant does not exist on parameters that are not admitted, nor on an admitted instance
of another variant. -/
theorem onVariant_refused (v : Variant) (s : State) (op : State → Except Stop (State × Response)) :
    (legal s.cfg = false → onVariant v s op = .refused .noInstance) ∧
    (legal s.cfg = true → s.cfg.variant ≠ v → onVariant v s op = .refused .otherVariant) :=
  ⟨fun hl => by simp [onVariant, hl], fun hl hne => by simp [onVariant, hl, hne]⟩

/-- Settles O12: a short word leaves the decoder without an operation, and PREDICT, UPDATE and MONITOR of a variant each
look at the instance before they run. -/
theorem refusedFormsStopByName : Obligations.RefusedFormsStopByName := by
  refine ⟨fun s edge later hin hr hv hlen => step_of_undecoded hin hr hv (decode_of_short hlen),
    fun s v addr r => List.forall_mem_cons.2 ⟨?predict,
      List.forall_mem_cons.2 ⟨?update, List.forall_mem_singleton.2 ?monitor⟩⟩⟩
  case predict => exact exec_predictInstr v addr s ▸ onVariant_refused v s (predict addr)
  case update => exact exec_updateInstr v addr r s ▸ onVariant_refused v s (update addr r)
  case monitor => exact exec_monitorInstr v s ▸ onVariant_refused v s monitor

end Sys2Proof.Machine
end
